-- ==== Sys2Proof/Word.lean ====
section
/-! DEFINITION. The word types of the 1-wire bus controller (spec/00_scope.md R9, R11). -/

namespace Sys2Proof

/-- The command word on the port `cmd`: 16 bits (spec/00_scope.md R9, spec/30_encoding.md R90). -/
abbrev Word := BitVec 16

/-- A byte: 8 bits, bit 0 the least significant (spec/00_scope.md R9, R11). -/
abbrev Byte := BitVec 8

/-- A four-bit field of a command word (spec/30_encoding.md R90). -/
abbrev Nibble := BitVec 4

/-- The index of a byte of `BUF`, 0 to 8 (spec/20_memory.md R60). The buffer access primitives are
"defined only for 0 <= i <= 8" (R62), so they take no other index. -/
abbrev BufIdx := Fin 9

end Sys2Proof
end

