-- ==== Sys2Proof/Syntax.lean ====
section
/-! DEFINITION. The 17 commands, one constructor per row of spec/opcode_table.json
(spec/30_encoding.md R94, R95; spec/00_scope.md R6). -/

namespace Sys2Proof

/-- A command of the set `OWC-1`. An operand is the field of the word as it stands
(spec/30_encoding.md R93); its legal range is checked by `Instr.wf`. -/
inductive Instr where
  /-- NOP, word 0x0000 (spec/46_buffer_misc.md R246). -/
  | nop
  /-- RESET, word 0x0100 (spec/41_reset_presence.md R140). -/
  | reset
  /-- RDBIT, word 0x0200 (spec/42_bit_slots.md R160). -/
  | rdbit
  /-- WR0, word 0x0300 (spec/42_bit_slots.md R166). -/
  | wr0
  /-- WR1, word 0x0400 (spec/42_bit_slots.md R164). -/
  | wr1
  /-- WRBYTE imm, word 0x05ii (spec/43_byte_transfer.md R196). -/
  | wrbyte (imm : Byte)
  /-- RDBYTE, word 0x0600 (spec/43_byte_transfer.md R197). -/
  | rdbyte
  /-- RDROM, word 0x0700 (spec/44_rom_layer.md R210). -/
  | rdrom
  /-- SKIPROM, word 0x0800 (spec/44_rom_layer.md R211). -/
  | skiprom
  /-- CONVT, word 0x0900 (spec/45_command_layer.md R225). -/
  | convt
  /-- RDSCR, word 0x0A00 (spec/45_command_layer.md R226). -/
  | rdscr
  /-- WRSCR, word 0x0B00 (spec/45_command_layer.md R227). -/
  | wrscr
  /-- CRCCLR, word 0x0C00 (spec/40_crc8.md R122). -/
  | crcclr
  /-- CRCUPD imm, word 0x0Dii (spec/40_crc8.md R123). -/
  | crcupd (imm : Byte)
  /-- STBUF idx, imm, word 0x1nii (spec/46_buffer_misc.md R247). -/
  | stbuf (idx : Nibble) (imm : Byte)
  /-- LDBUF idx, word 0x2n00 (spec/46_buffer_misc.md R248). -/
  | ldbuf (idx : Nibble)
  /-- CRCBUF len, word 0x3n00 (spec/40_crc8.md R124). -/
  | crcbuf (len : Nibble)
deriving DecidableEq, Repr

/-- The mnemonic of spec/opcode_table.json. -/
def Instr.mnemonic : Instr → String
  | .nop => "NOP"
  | .reset => "RESET"
  | .rdbit => "RDBIT"
  | .wr0 => "WR0"
  | .wr1 => "WR1"
  | .wrbyte _ => "WRBYTE"
  | .rdbyte => "RDBYTE"
  | .rdrom => "RDROM"
  | .skiprom => "SKIPROM"
  | .convt => "CONVT"
  | .rdscr => "RDSCR"
  | .wrscr => "WRSCR"
  | .crcclr => "CRCCLR"
  | .crcupd _ => "CRCUPD"
  | .stbuf _ _ => "STBUF"
  | .ldbuf _ => "LDBUF"
  | .crcbuf _ => "CRCBUF"

end Sys2Proof
end

