-- ==== Sys2Proof/WellFormed.lean ====
section
/-! DEFINITION. The legal operand ranges of the commands (spec/30_encoding.md R95, R100). -/

namespace Sys2Proof

/-- A legal `idx`: 0 to 8 (spec/30_encoding.md R95, R100). -/
def idxLegal (idx : Nibble) : Bool := decide (idx.toNat ≤ 8)

/-- A legal `len`: 0 to 9 (spec/30_encoding.md R95, R100). -/
def lenLegal (len : Nibble) : Bool := decide (len.toNat ≤ 9)

/-- A command whose operands the encoding admits: STBUF and LDBUF need `idx <= 8`, CRCBUF needs
`len <= 9`, and every value of `imm` is legal (spec/30_encoding.md R95, R100). -/
def Instr.wf : Instr → Bool
  | .nop => true
  | .reset => true
  | .rdbit => true
  | .wr0 => true
  | .wr1 => true
  | .wrbyte _ => true
  | .rdbyte => true
  | .rdrom => true
  | .skiprom => true
  | .convt => true
  | .rdscr => true
  | .wrscr => true
  | .crcclr => true
  | .crcupd _ => true
  | .stbuf idx _ => idxLegal idx
  | .ldbuf idx => idxLegal idx
  | .crcbuf len => lenLegal len

end Sys2Proof
end

