-- ==== Sys2Proof/Decode.lean ====
section
/-! DEFINITION. The decoder, total on all 65536 words and rejecting by name, then the encoder and the
opcode table as data (spec/30_encoding.md R90 to R102, spec/opcode_table.json). -/

namespace Sys2Proof

/-- `CW[15:12]` (spec/30_encoding.md R90). -/
def majorField (w : Word) : Nibble := w.extractLsb' 12 4

/-- `CW[11:8]` (spec/30_encoding.md R90). -/
def minorField (w : Word) : Nibble := w.extractLsb' 8 4

/-- `CW[7:0]` (spec/30_encoding.md R90). -/
def immField (w : Word) : Byte := w.extractLsb' 0 8

/-- The sub-causes of an illegal word (spec/60_exceptions.md R261). The hardware does not record which
one it was; the name is the decoder's own. Where several hold, the first that spec/30_encoding.md R97
tests is named; "no order among them is observable" (R265). -/
inductive IllegalCause where
  /-- `major` 0x4 to 0xF (spec/30_encoding.md R98). -/
  | reservedMajor
  /-- Format S `funct` 0xE or 0xF (spec/30_encoding.md R98). -/
  | reservedFunct
  /-- `imm != 0x00` where the command has no `imm` operand (spec/30_encoding.md R99). -/
  | immNotZero
  /-- `idx` in 9 to 15 (spec/30_encoding.md R100). -/
  | idxOutOfRange
  /-- `len` in 10 to 15 (spec/30_encoding.md R100). -/
  | lenOutOfRange
deriving DecidableEq, Repr

/-- "The decoder is a total function from the 65536 words to the 17 commands plus `ILLEGAL`"
(spec/30_encoding.md R97). -/
inductive Decoded where
  | command (i : Instr)
  | illegal (why : IllegalCause)
deriving DecidableEq, Repr

/-- A command with no `imm` operand needs `imm = 0x00` (spec/30_encoding.md R99). -/
def needZeroImm (imm : Byte) (i : Instr) : Decoded :=
  if imm = 0x00#8 then .command i else .illegal .immNotZero

/-- Format S, `major = 0x0`, by `funct` (spec/30_encoding.md R91, R94, R97). -/
def decodeFormatS (funct : Nibble) (imm : Byte) : Decoded :=
  match funct.toNat with
  | 0x0 => needZeroImm imm .nop
  | 0x1 => needZeroImm imm .reset
  | 0x2 => needZeroImm imm .rdbit
  | 0x3 => needZeroImm imm .wr0
  | 0x4 => needZeroImm imm .wr1
  | 0x5 => .command (.wrbyte imm)
  | 0x6 => needZeroImm imm .rdbyte
  | 0x7 => needZeroImm imm .rdrom
  | 0x8 => needZeroImm imm .skiprom
  | 0x9 => needZeroImm imm .convt
  | 0xA => needZeroImm imm .rdscr
  | 0xB => needZeroImm imm .wrscr
  | 0xC => needZeroImm imm .crcclr
  | 0xD => .command (.crcupd imm)
  | _ => .illegal .reservedFunct

/-- The decoder over the three fields (spec/30_encoding.md R97). -/
def decodeFields (major minor : Nibble) (imm : Byte) : Decoded :=
  match major.toNat with
  | 0x0 => decodeFormatS minor imm
  | 0x1 => if idxLegal minor then .command (.stbuf minor imm) else .illegal .idxOutOfRange
  | 0x2 => if idxLegal minor then needZeroImm imm (.ldbuf minor) else .illegal .idxOutOfRange
  | 0x3 => if lenLegal minor then needZeroImm imm (.crcbuf minor) else .illegal .lenOutOfRange
  | _ => .illegal .reservedMajor

/-- `decode(w)` (spec/30_encoding.md R97). -/
def decode (w : Word) : Decoded := decodeFields (majorField w) (minorField w) (immField w)

/-- The instruction the decoder reads from a table row's word. Every command is exactly one 16-bit word
(spec/30_encoding.md R102) and a parallel port value with no byte order (spec/20_memory.md R65). -/
def decodeTableWord (nbits w : Nat) : Option Instr :=
  if w < 2 ^ 16 ∧ w < 2 ^ nbits then
    match decode (BitVec.ofNat 16 w) with
    | .command i => some i
    | .illegal _ => none
  else none

/-! ### The encoder -/

/-- A word from its three fields (spec/30_encoding.md R90). -/
def packWord (major minor : Nibble) (imm : Byte) : Word := major ++ minor ++ imm

/-- The word of a command (spec/30_encoding.md R94, R95). -/
def encode : Instr → Word
  | .nop => packWord 0x0 0x0 0x00
  | .reset => packWord 0x0 0x1 0x00
  | .rdbit => packWord 0x0 0x2 0x00
  | .wr0 => packWord 0x0 0x3 0x00
  | .wr1 => packWord 0x0 0x4 0x00
  | .wrbyte imm => packWord 0x0 0x5 imm
  | .rdbyte => packWord 0x0 0x6 0x00
  | .rdrom => packWord 0x0 0x7 0x00
  | .skiprom => packWord 0x0 0x8 0x00
  | .convt => packWord 0x0 0x9 0x00
  | .rdscr => packWord 0x0 0xA 0x00
  | .wrscr => packWord 0x0 0xB 0x00
  | .crcclr => packWord 0x0 0xC 0x00
  | .crcupd imm => packWord 0x0 0xD imm
  | .stbuf idx imm => packWord 0x1 idx imm
  | .ldbuf idx => packWord 0x2 idx 0x00
  | .crcbuf len => packWord 0x3 len 0x00

/-! ### The opcode table as data -/

/-- A row of spec/opcode_table.json: `match`, `mask`, and the `max` of its `idx` or `len` field where it
has one (spec/30_encoding.md R96). -/
structure OpcodeRow where
  mnemonic : String
  pattern  : Word
  mask     : Word
  maxMinor : Option Nat
deriving DecidableEq, Repr

/-- The 17 rows of spec/opcode_table.json (spec/30_encoding.md R96). -/
def opcodeTable : List OpcodeRow := [
  ⟨"NOP", 0x0000, 0xFFFF, none⟩,
  ⟨"RESET", 0x0100, 0xFFFF, none⟩,
  ⟨"RDBIT", 0x0200, 0xFFFF, none⟩,
  ⟨"WR0", 0x0300, 0xFFFF, none⟩,
  ⟨"WR1", 0x0400, 0xFFFF, none⟩,
  ⟨"WRBYTE", 0x0500, 0xFF00, none⟩,
  ⟨"RDBYTE", 0x0600, 0xFFFF, none⟩,
  ⟨"RDROM", 0x0700, 0xFFFF, none⟩,
  ⟨"SKIPROM", 0x0800, 0xFFFF, none⟩,
  ⟨"CONVT", 0x0900, 0xFFFF, none⟩,
  ⟨"RDSCR", 0x0A00, 0xFFFF, none⟩,
  ⟨"WRSCR", 0x0B00, 0xFFFF, none⟩,
  ⟨"CRCCLR", 0x0C00, 0xFFFF, none⟩,
  ⟨"CRCUPD", 0x0D00, 0xFF00, none⟩,
  ⟨"STBUF", 0x1000, 0xF000, some 8⟩,
  ⟨"LDBUF", 0x2000, 0xF0FF, some 8⟩,
  ⟨"CRCBUF", 0x3000, 0xF0FF, some 9⟩]

/-- "A word `w` selects a row when `(w & mask) = match` and every constraint in the row's `fields`
holds" (spec/30_encoding.md R96). -/
def OpcodeRow.selects (r : OpcodeRow) (w : Word) : Bool :=
  decide (w &&& r.mask = r.pattern) &&
    match r.maxMinor with
    | none => true
    | some m => decide ((minorField w).toNat ≤ m)

end Sys2Proof
end

