-- ==== Sys2Proof/Config.lean ====
section
/-! DEFINITION. What the spec leaves open: the three parameters of spec/00_scope.md R10 and the free
input values. Every constant here is opaque: no proof can see its value. -/

namespace Sys2Proof

/-- `TICK_NS`: the physical length of one tick in nanoseconds, nominally 1000; open
(spec/00_scope.md R10, spec/93_implementation_defined.md U11). No rule depends on it. -/
opaque Config.tickNs : Nat

/-- `TICK_TOL`: the allowed relative error of `TICK_NS`; open (spec/00_scope.md R10). No rule depends
on it. -/
opaque Config.tickTol : Rat

/-- `CLK_PER_TICK`: how many cycles of the physical clock make one tick; open (spec/00_scope.md R10,
spec/93_implementation_defined.md U14). No rule depends on it. -/
opaque Config.clkPerTick : Nat

/-- The level the environment puts on `ow_in` in a tick for which `State.levels` lists none. "The model
takes `ow_in@n` as a free two-valued input in every tick" (spec/10_state.md R24). `true` is 1, high.
DESIGN CHOICE (log 2), safe: a free value. -/
opaque Config.freeLevel : Nat → Bool

/-- The code the host puts on `rd_sel` in a tick for which `State.rdSels` lists none
(spec/10_state.md R29). DESIGN CHOICE (log 2), safe: a free value, and no state depends on it. -/
opaque Config.freeRdSel : Nat → BitVec 2

end Sys2Proof
end

