-- ==== Sys2Proof/Machine/State.lean ====
section
/-! DEFINITION. The state of the machine: the registers of spec/10_state.md R20, the four input streams of
spec/00_scope.md R5 as lists of plain data, and the tick number; the faults and refusals; the state after
reset (spec/10_state.md R45). -/

namespace Sys2Proof.Machine

/-- The twelve values of `OP`: the bus command in progress, or `IDLE` (spec/10_state.md R20, R36). -/
inductive Op where
  | idle
  | reset
  | rdbit
  | wr0
  | wr1
  | wrbyte
  | rdbyte
  | rdrom
  | skiprom
  | convt
  | rdscr
  | wrscr
deriving DecidableEq, Repr

/-- The byte buffer `BUF` as address and byte pairs in one canonical form: addresses strictly rising, all
below 9, and no listed byte 0x00, which is what an unlisted address reads as, the reset value of every
byte (spec/20_memory.md R60). `Memory.wf` in Machine/Ops.lean states the form. -/
abbrev Memory := List Host.Cell

/-- Why a tick can stop. -/
inductive Fault where
  /-- Raised by `advance` alone, in a busy tick whose `BYTEIDX` is not an index of the byte plan of `OP`.
  The spec gives no step for such a position: `BYTEIDX` "never reaches" a value beyond the plan
  (spec/10_state.md R37). Safe: the model stops. Unreachable: every step keeps `Inv`, and no state with
  `Inv` raises it (log 4). -/
  | noPlanItem
deriving DecidableEq, Repr

/-- Why a command can be refused. -/
inductive Refusal where
  /-- Raised by an arm of `exec` whose command has no meaning yet; no arm raises it in this model. Safe. -/
  | notModelled (mnemonic : String)
deriving DecidableEq, Repr

/-- The state. The first eleven fields are "the complete state `S` of OWC" (spec/10_state.md R20); flags
are Booleans, `true` for 1, and the three hidden counters are naturals, which "a model may use"
(spec/92_eei_decisions.md D31), with their ranges in `Inv`. The last five fields are the model's own: what
the reset source, the host and the bus environment put on the input ports in this tick and the ticks to
come (spec/00_scope.md R5, spec/10_state.md R21), and the number of the tick (R12). -/
structure State where
  /-- `PRES`, 1 bit: the result of the last RESET (spec/10_state.md R31). -/
  pres : Bool
  /-- `RBIT`, 1 bit: the bit returned by the last RDBIT (spec/10_state.md R32). -/
  rbit : Bool
  /-- `ERR`, 1 bit, sticky: an illegal word was accepted since reset (spec/10_state.md R35). -/
  err : Bool
  /-- `DATA`, 8 bits: the byte returned by the last RDBYTE or LDBUF (spec/10_state.md R33). -/
  data : Byte
  /-- `CRC`, 8 bits: the CRC-8 accumulator (spec/10_state.md R34). -/
  crc : Byte
  /-- `BUF[0..8]`: the byte buffer (spec/10_state.md R43, spec/20_memory.md R60). -/
  buf : Memory
  /-- `OP`: the bus command in progress, or `IDLE` (spec/10_state.md R36). -/
  op : Op
  /-- `BYTEIDX`, 4 bits, 0 to 9: the byte in progress within the command (spec/10_state.md R37). -/
  byteIdx : Nat
  /-- `BITIDX`, 3 bits, 0 to 7: the slot in progress within the byte (spec/10_state.md R39). -/
  bitIdx : Nat
  /-- `T`, 10 bits, 0 to 999: the offset of the tick within the primitive (spec/10_state.md R38). -/
  t : Nat
  /-- `SH`, 8 bits: the byte shift register (spec/10_state.md R42). -/
  sh : Byte
  /-- The model's own: the values of the input `rst`, this tick's first (spec/10_state.md R25). A tick not
  listed has `rst = 0` (log 2). -/
  rsts : List Bool
  /-- The model's own: the words on the command port, this tick's first, `none` where `cmd_valid = 0`
  (spec/10_state.md R26). A tick not listed offers nothing (log 2). -/
  cmds : List (Option Word)
  /-- The model's own: the values of the input `rd_sel`, this tick's first (spec/10_state.md R29). A tick
  not listed has a free value (log 2). -/
  rdSels : List (BitVec 2)
  /-- The model's own: the values of the input `ow_in`, this tick's first, `true` for high
  (spec/10_state.md R24). A tick not listed has a free value (log 2). -/
  levels : List Bool
  /-- The model's own: the number of this tick (spec/00_scope.md R12), which indexes the free values. -/
  tick : Nat
deriving DecidableEq, Repr

/-- `RESET_STATE`: all flags 0, all bytes 0x00, `OP = IDLE`, all counters 0 (spec/10_state.md R20, R45,
spec/70_reset_and_hazards.md R290), with no input listed and the ticks counted from 0 (log 1, log 2). -/
def State.reset : State where
  pres := false
  rbit := false
  err := false
  data := 0x00
  crc := 0x00
  buf := []
  op := .idle
  byteIdx := 0
  bitIdx := 0
  t := 0
  sh := 0x00
  rsts := []
  cmds := []
  rdSels := []
  levels := []
  tick := 0

end Sys2Proof.Machine
end

