-- ==== Sys2Proof/Machine/Timing.lean ====
section
/-! DEFINITION. The constants of the hardware: durations in ticks, 1-Wire command bytes, the CRC constants
(spec/00_scope.md R8, R9). "They are fixed values of this hardware, not parameters". -/

namespace Sys2Proof.Machine

/-- `T_RSTL`: RESET, line driven low (spec/00_scope.md R8). -/
def tRstl : Nat := 500
/-- `T_PDS`: RESET, released, before the presence sample (spec/00_scope.md R8, spec/90_conflicts.md C1). -/
def tPds : Nat := 65
/-- `T_RSTREC`: RESET, released, after the presence sample (spec/00_scope.md R8, spec/90_conflicts.md C2). -/
def tRstrec : Nat := 435
/-- `T_RESET = T_RSTL + T_PDS + T_RSTREC` (spec/00_scope.md R8). -/
def tReset : Nat := tRstl + tPds + tRstrec
/-- `T_RDL`: RDBIT, line driven low (spec/00_scope.md R8). -/
def tRdl : Nat := 5
/-- `T_RDS`: RDBIT, released, before the data sample (spec/00_scope.md R8). -/
def tRds : Nat := 5
/-- `T_RDREC`: RDBIT, released, after the sample (spec/00_scope.md R8). -/
def tRdrec : Nat := 65
/-- `T_W1L`: WR1, line driven low (spec/00_scope.md R8). -/
def tW1l : Nat := 5
/-- `T_W1H`: WR1, released (spec/00_scope.md R8). -/
def tW1h : Nat := 65
/-- `T_W1REC`: WR1, released, recovery (spec/00_scope.md R8). -/
def tW1rec : Nat := 5
/-- `T_W0L`: WR0, line driven low (spec/00_scope.md R8). -/
def tW0l : Nat := 70
/-- `T_W0REC`: WR0, released, recovery (spec/00_scope.md R8). -/
def tW0rec : Nat := 5
/-- `T_SLOT`: every slot, total (spec/00_scope.md R8, spec/42_bit_slots.md R168). -/
def tSlot : Nat := 75
/-- `T_BYTE = 8 * T_SLOT` (spec/00_scope.md R8, spec/43_byte_transfer.md R190). -/
def tByte : Nat := 8 * tSlot

/-- `BUF_LEN` (spec/00_scope.md R9). -/
def bufLen : Nat := 9
/-- `CMD_READ_ROM` (spec/00_scope.md R9). -/
def cmdReadRom : Byte := 0x33
/-- `CMD_SKIP_ROM` (spec/00_scope.md R9). -/
def cmdSkipRom : Byte := 0xCC
/-- `CMD_CONVERT_T` (spec/00_scope.md R9). -/
def cmdConvertT : Byte := 0x44
/-- `CMD_READ_SCRATCHPAD` (spec/00_scope.md R9). -/
def cmdReadScratchpad : Byte := 0xBE
/-- `CMD_WRITE_SCRATCHPAD` (spec/00_scope.md R9). -/
def cmdWriteScratchpad : Byte := 0x4E
/-- `CRC_POLY`, exclusive-ored as written, not reflected again (spec/00_scope.md R9,
spec/90_conflicts.md C3). -/
def crcPoly : Byte := 0x8C
/-- `CRC_INIT` (spec/00_scope.md R9). -/
def crcInit : Byte := 0x00

/-- "A physical duration is the count times `TICK_NS`" (spec/00_scope.md R10), in nanoseconds. -/
def physicalNs (ticks : Nat) : Nat := ticks * Config.tickNs

end Sys2Proof.Machine
end

