-- ==== Sys2Proof/Machine/Ops.lean ====
section
/-! DEFINITION. The shared operations: the input ports, the buffer, the CRC-8 function, the sequencer
position, the one error, and the end of a tick. -/

namespace Sys2Proof.Machine

/-! ### The input ports, this tick and the ticks to come -/

/-- `rst` in the tick `k` after this one (spec/10_state.md R25). -/
def rstAt (k : Nat) (s : State) : Bool := s.rsts.getD k false

/-- `cmd` in the tick `k` after this one: a word or nothing (spec/10_state.md R26). -/
def cmdAt (k : Nat) (s : State) : Option Word := s.cmds.getD k none

/-- `rd_sel` in the tick `k` after this one (spec/10_state.md R29). -/
def rdSelAt (k : Nat) (s : State) : BitVec 2 := s.rdSels.getD k (Config.freeRdSel (s.tick + k))

/-- `ow_in` in the tick `k` after this one, `true` for high (spec/10_state.md R24). -/
def owInAt (k : Nat) (s : State) : Bool := s.levels.getD k (Config.freeLevel (s.tick + k))

/-- The end of a tick: the input streams and the tick number move on (spec/00_scope.md R12). -/
def endTick (s : State) : State :=
  { s with
    rsts := s.rsts.tail
    cmds := s.cmds.tail
    rdSels := s.rdSels.tail
    levels := s.levels.tail
    tick := s.tick + 1 }

/-- What `decode` makes of the word offered in this tick (spec/10_state.md R27, spec/30_encoding.md R97). -/
def offered (s : State) : Option Decoded := (cmdAt 0 s).map decode

/-! ### The buffer -/

/-- The byte listed at an address; an unlisted one reads as its reset value 0x00
(spec/20_memory.md R60). -/
def Memory.get (a : Nat) : Memory → Byte
  | [] => 0x00
  | (b, v) :: rest => if b = a then v else Memory.get a rest

/-- Lists a byte at an address, keeping the canonical form: writing 0x00 removes the entry. -/
def Memory.put (a : Nat) (v : Byte) : Memory → Memory
  | [] => if v = 0x00#8 then [] else [(a, v)]
  | (b, w) :: rest =>
    if a < b then (if v = 0x00#8 then (b, w) :: rest else (a, v) :: (b, w) :: rest)
    else if a = b then (if v = 0x00#8 then rest else (a, v) :: rest)
    else (b, w) :: Memory.put a v rest

/-- The canonical form of `BUF`: addresses strictly rising, all below `BUF_LEN = 9`, and no listed byte
equal to what an unlisted address reads as. -/
abbrev Memory.wf (m : Memory) : Prop :=
  m.Pairwise (fun c d => c.1 < d.1) ∧ ∀ c ∈ m, c.1 < bufLen ∧ c.2 ≠ 0x00#8

/-- `MemRead(i, 1)`: "returns `BUF[i]`" (spec/20_memory.md R62). -/
def memRead (i : BufIdx) (s : State) : Byte := Memory.get i.val s.buf

/-- `MemWrite(i, 1, v)`: "makes `BUF[i] <- v` and changes no other byte" (spec/20_memory.md R62). -/
def memWrite (i : BufIdx) (v : Byte) (s : State) : State := { s with buf := Memory.put i.val v s.buf }

/-- The nine bytes of `BUF` in index order (spec/20_memory.md R60). -/
def bufBytes (s : State) : List Byte := (List.finRange 9).map fun i => memRead i s

/-! ### CRC-8 -/

/-- One of the eight iterations: "if the low bit of the accumulator is set, right-shift the accumulator
and XOR with 0x8C, otherwise just right-shift" (spec/40_crc8.md R120). -/
def crcShift (a : Byte) : Byte := if a.getLsbD 0 then (a >>> 1) ^^^ crcPoly else a >>> 1

/-- `crc8_byte(acc, b)` (spec/40_crc8.md R120). -/
def crc8Byte (acc b : Byte) : Byte := Nat.iterate crcShift 8 (acc ^^^ b)

/-- `crc8(s)`: from `CRC_INIT`, byte by byte in index order, no final XOR (spec/40_crc8.md R121). -/
def crc8 (bytes : List Byte) : Byte := bytes.foldl crc8Byte crcInit

/-- `CRC <- v`. -/
def setCrc (v : Byte) (s : State) : State := { s with crc := v }

/-! ### The sequencer position, the shifter, the error -/

/-- `seq <- (op, i, j, r)`: "write the sequencer position `OP <- op, BYTEIDX <- i, BITIDX <- j, T <- r`"
(spec/00_scope.md R14). -/
def seqTo (op : Op) (i j r : Nat) (s : State) : State :=
  { s with op := op, byteIdx := i, bitIdx := j, t := r }

/-- `SH <- v` where a byte is there to load, else `SH` unchanged (spec/43_byte_transfer.md R193). -/
def loadSh (v : Option Byte) (s : State) : State := { s with sh := v.getD s.sh }

/-- The write of a sampled bit into the shifter: `SH <- (SH >> 1) | (ow_in << 7)`
(spec/43_byte_transfer.md R194). -/
def shiftIn (sh : Byte) (level : Bool) : Byte :=
  (sh >>> 1) ||| ((BitVec.ofBool level).setWidth 8 <<< 7)

/-- `raise CmdError`: "`ERR <- 1`" and "Nothing else changes" (spec/60_exceptions.md R260). There is no
trap entry and no return (R267, R268). -/
def raiseCmdError (s : State) : Host.Outcome State Fault Refusal := .next { s with err := true }

/-- `RESET_STATE` in the registers; the input streams and the tick number are not the controller's state
and stay (spec/70_reset_and_hazards.md R290). -/
def resetRegs (s : State) : State :=
  { State.reset with
    rsts := s.rsts, cmds := s.cmds, rdSels := s.rdSels, levels := s.levels, tick := s.tick }

/-- Applies a function to the next state; a fault or a refusal stays. -/
def mapNext (f : State → State) :
    Host.Outcome State Fault Refusal → Host.Outcome State Fault Refusal
  | .next s => .next (f s)
  | .fault r => .fault r
  | .refused r => .refused r

end Sys2Proof.Machine
end

