-- ==== Sys2Proof/Machine/Flags.lean ====
section
/-! DEFINITION. The derived flags, the STATUS register, the read port and `cmd_ready`
(spec/10_state.md R20, R29, R30, R34, R41). -/

namespace Sys2Proof.Machine

/-- "`BUSY = 1` exactly when `OP != IDLE`" (spec/10_state.md R41). -/
def busy (s : State) : Bool := decide (s.op ≠ .idle)

/-- "`CRCZ` is the derived flag `CRC = 0x00`" (spec/10_state.md R34). -/
def crcz (s : State) : Bool := decide (s.crc = 0x00#8)

/-- "`cmd_ready = 1` exactly when `OP = IDLE` and `rst = 0`" (spec/10_state.md R41). -/
def cmdReady (s : State) : Bool := decide (s.op = .idle) && !rstAt 0 s

/-- STATUS: bit 0 `BUSY`, 1 `PRES`, 2 `RBIT`, 3 `ERR`, 4 `CRCZ`, bits 7:5 zero (spec/10_state.md R30). -/
def status (s : State) : Byte :=
  0b000#3 ++ BitVec.ofBool (crcz s) ++ BitVec.ofBool s.err ++ BitVec.ofBool s.rbit ++
    BitVec.ofBool s.pres ++ BitVec.ofBool (busy s)

/-- The register a code of `rd_sel` selects: 0 STATUS, 1 DATA, 2 CRC, 3 reserved, which reads 0x00
(spec/10_state.md R29). -/
def readPort (sel : BitVec 2) (s : State) : Byte :=
  match sel.toNat with
  | 0 => status s
  | 1 => s.data
  | 2 => s.crc
  | _ => 0x00

/-- The output `rd_data` of this tick (spec/10_state.md R29). -/
def rdData (s : State) : Byte := readPort (rdSelAt 0 s) s

end Sys2Proof.Machine
end

