-- ==== Sys2Proof/Machine/Operands.lean ====
section
/-! DEFINITION. Operands: buffer indices and lengths of a command word, and the items of a byte plan with the
byte plans of the commands (spec/30_encoding.md R93, R95, R100; spec/43_byte_transfer.md R191). -/

namespace Sys2Proof.Machine

/-- The buffer index an `idx` field names, if it is one: 9 to 15 name none (spec/30_encoding.md R100). -/
def bufIdx? (idx : Nibble) : Option BufIdx :=
  if h : idx.toNat < 9 then some ⟨idx.toNat, h⟩ else none

/-- The first `len` bytes of `BUF`, if `len` is 0 to 9 (spec/40_crc8.md R124, spec/30_encoding.md R100). -/
def bufPrefix? (len : Nibble) (s : State) : Option (List Byte) :=
  if len.toNat ≤ 9 then some ((bufBytes s).take len.toNat) else none

/-- An item of a byte plan (spec/43_byte_transfer.md R191). -/
inductive Item where
  /-- `WC(c)`: write the constant byte `c`. -/
  | wc (c : Byte)
  /-- `WI`: write the command's `imm` operand (WRBYTE only). -/
  | wi
  /-- `WB(i)`: write the buffer byte `BUF[i]`, read when the byte starts. -/
  | wb (i : BufIdx)
  /-- `RD`: read a byte into `DATA` (RDBYTE only). -/
  | rd
  /-- `RB(i)`: read a byte into `BUF[i]`. -/
  | rb (i : BufIdx)
deriving DecidableEq, Repr

/-- "`WC`, `WI`, `WB` are write items; `RD`, `RB` are read items" (spec/43_byte_transfer.md R191). -/
def isWriteItem : Item → Bool
  | .wc _ => true
  | .wi => true
  | .wb _ => true
  | .rd => false
  | .rb _ => false

/-- `value(item)` of a write item, and nothing for a read item (spec/43_byte_transfer.md R191). `imm` is
the operand of the command, present in the tick of acceptance only: the state does not hold it, and `WI`
is no item of a plan but the first of WRBYTE's. -/
def itemValue? (imm : Option Byte) (s : State) : Item → Option Byte
  | .wc c => some c
  | .wi => imm
  | .wb i => some (memRead i s)
  | .rd => none
  | .rb _ => none

/-- `plan(OP)`: the byte plan of each byte command (spec/43_byte_transfer.md R191, R196, R197,
spec/44_rom_layer.md R210, R211, spec/45_command_layer.md R225 to R227). `IDLE` and the four primitive
commands have no plan. -/
def plan : Op → List Item
  | .idle => []
  | .reset => []
  | .rdbit => []
  | .wr0 => []
  | .wr1 => []
  | .wrbyte => [.wi]
  | .rdbyte => [.rd]
  | .rdrom => .wc cmdReadRom :: (List.range 8).map fun i => .rb (Fin.ofNat 9 i)
  | .skiprom => [.wc cmdSkipRom]
  | .convt => [.wc cmdConvertT]
  | .rdscr => .wc cmdReadScratchpad :: (List.range 9).map fun i => .rb (Fin.ofNat 9 i)
  | .wrscr => [.wc cmdWriteScratchpad, .wb 0, .wb 1, .wb 2]

/-- `nbytes(OP)`: "the length of the plan" (spec/43_byte_transfer.md R191). -/
def nbytes (op : Op) : Nat := (plan op).length

/-- `plan(S.OP)[S.BYTEIDX]`, if there is one (spec/43_byte_transfer.md R192). -/
def itemNow? (s : State) : Option Item := (plan s.op)[s.byteIdx]?

end Sys2Proof.Machine
end

