-- ==== Sys2Proof/Machine/Engine.lean ====
section
/-! DEFINITION. The bus engine: the primitive in progress, the pin outputs, the busy tick, the end of a slot,
and the acceptance of a bus command (spec/10_state.md R27, R40, R44; spec/43_byte_transfer.md R190 to
R195). -/

namespace Sys2Proof.Machine

/-- The four primitives (spec/43_byte_transfer.md R192, spec/00_scope.md R15). -/
inductive Prim where
  | reset
  | rd
  | w1
  | w0
deriving DecidableEq, Repr

/-- The primitive a primitive command is made of; `none` for `IDLE` and the byte commands
(spec/43_byte_transfer.md R192). -/
def primitiveOf? : Op → Option Prim
  | .idle => none
  | .reset => some .reset
  | .rdbit => some .rd
  | .wr0 => some .w0
  | .wr1 => some .w1
  | .wrbyte => none
  | .rdbyte => none
  | .rdrom => none
  | .skiprom => none
  | .convt => none
  | .rdscr => none
  | .wrscr => none

/-- The primitive of the slot in progress of a byte: a read item gives a read slot, a write item the write
slot of `SH[0]`, "perform one write slot with that bit's value" (spec/43_byte_transfer.md R192). -/
def slotPrim (item : Item) (sh : Byte) : Prim :=
  if isWriteItem item then (if sh.getLsbD 0 then .w1 else .w0) else .rd

/-- `kind(S)` (spec/43_byte_transfer.md R192); `none` when idle, and at a position that is no item of the
plan, which no run reaches (log 4). -/
def kind? (s : State) : Option Prim :=
  match primitiveOf? s.op with
  | some k => some k
  | none => (itemNow? s).map fun item => slotPrim item s.sh

/-- `low_len` (spec/10_state.md R40). -/
def lowLen : Prim → Nat
  | .reset => tRstl
  | .rd => tRdl
  | .w1 => tW1l
  | .w0 => tW0l

/-- `len`: "1000 if k = RESET else 75" (spec/10_state.md R44). -/
def primLen : Prim → Nat
  | .reset => tReset
  | .rd => tSlot
  | .w1 => tSlot
  | .w0 => tSlot

/-! ### The pin outputs -/

/-- `ow_oe`, the direction output: `oe(S)` (spec/10_state.md R22, R40). `true` is 1, drive. -/
def owOe (s : State) : Bool :=
  match kind? s with
  | none => false
  | some k => decide (s.t < lowLen k)

/-- `ow_out`, the output level: "`ow_out@n = 0` (low) in every tick" (spec/10_state.md R23). -/
def owOut (_ : State) : Bool := false

/-! ### The busy tick -/

/-- Part 1 of `advance`, the sense step (spec/10_state.md R44; spec/41_reset_presence.md R142,
spec/42_bit_slots.md R163, spec/43_byte_transfer.md R194). -/
def sense (k : Prim) (s : State) : State :=
  match k with
  | .reset => if s.t = tRstl + tPds then { s with pres := !owInAt 0 s } else s
  | .rd =>
    if s.t = tRdl + tRds then
      (if s.op = .rdbit then { s with rbit := owInAt 0 s }
       else { s with sh := shiftIn s.sh (owInAt 0 s) })
    else s
  | .w1 => s
  | .w0 => s

/-- Where a completed read byte goes: "if item = RD: DATA <- S.SH; if item = RB(i): BUF[i] <- S.SH"
(spec/43_byte_transfer.md R195). -/
def storeByte (item : Item) (s : State) : State :=
  match item with
  | .rd => { s with data := s.sh }
  | .rb i => memWrite i s.sh s
  | .wc _ => s
  | .wi => s
  | .wb _ => s

/-- "if item is a write item: SH <- S.SH >> 1" (spec/43_byte_transfer.md R195). -/
def shiftOut (item : Item) (s : State) : State :=
  if isWriteItem item then { s with sh := s.sh >>> 1 } else s

/-- The byte after the one in progress starts, with the next write byte loaded, or the command is complete
(spec/43_byte_transfer.md R193, R195). `s` is the state the tick started from and `u` what the lines
before made of it: a `WB(i)` reads `BUF[i]` "as it is in that tick". -/
def nextByte (s u : State) : State :=
  match (plan s.op)[s.byteIdx + 1]? with
  | some next => loadSh (itemValue? none s next) { u with byteIdx := s.byteIdx + 1 }
  | none => { u with op := .idle, byteIdx := 0 }

/-- `end_of_slot(S)` for the item in progress, without the `T <- 0` that `moveOn` makes
(spec/43_byte_transfer.md R195). -/
def endOfSlot (item : Item) (s : State) : State :=
  if s.bitIdx < 7 then shiftOut item { s with bitIdx := s.bitIdx + 1 }
  else nextByte s (shiftOut item (storeByte item { s with bitIdx := 0 }))

/-- The last tick of a primitive: a primitive command ends ("OP <- IDLE"), a byte command goes on with
`end_of_slot` (spec/10_state.md R44). A primitive command is one whose plan has no item. -/
def endOfPrimitive (s : State) : State :=
  match itemNow? s with
  | none => { s with t := 0, op := .idle }
  | some item => endOfSlot item { s with t := 0 }

/-- Part 2 of `advance` (spec/10_state.md R44). -/
def moveOn (k : Prim) (s : State) : State :=
  if s.t < primLen k - 1 then { s with t := s.t + 1 } else endOfPrimitive s

/-- `advance(S, ow_in)`, the step of a busy tick (spec/10_state.md R44). The two parts happen in the same
tick; "a sample tick is never also a last tick", so part 2 may read the state part 1 left. -/
def advance (s : State) : Host.Outcome State Fault Refusal :=
  match kind? s with
  | none => .fault .noPlanItem
  | some k => .next (moveOn k (sense k s))

/-! ### Acceptance of a bus command -/

/-- "seq <- (m, 0, 0, 0); and for a byte command whose byte 0 is a write byte, SH <- that byte"
(spec/10_state.md R27, spec/43_byte_transfer.md R193). `imm` is the operand, for WRBYTE. -/
def acceptBus (op : Op) (imm : Option Byte) (s : State) : Host.Outcome State Fault Refusal :=
  .next (loadSh ((plan op).head?.bind (itemValue? imm s)) (seqTo op 0 0 0 s))

/-- The value of `OP` while a command runs: its own for a bus command, `IDLE` for a zero-time command
(spec/00_scope.md R15, spec/10_state.md R20). -/
def busOp : Instr → Op
  | .nop => .idle
  | .reset => .reset
  | .rdbit => .rdbit
  | .wr0 => .wr0
  | .wr1 => .wr1
  | .wrbyte _ => .wrbyte
  | .rdbyte => .rdbyte
  | .rdrom => .rdrom
  | .skiprom => .skiprom
  | .convt => .convt
  | .rdscr => .rdscr
  | .wrscr => .wrscr
  | .crcclr => .idle
  | .crcupd _ => .idle
  | .stbuf _ _ => .idle
  | .ldbuf _ => .idle
  | .crcbuf _ => .idle

/-- The duration `D` of a command, in ticks (spec/70_reset_and_hazards.md R310): 0 for a zero-time command,
the length of its primitive for a primitive command, `600 * nbytes(OP)` for a byte command
(spec/43_byte_transfer.md R191). -/
def durationOf (op : Op) : Nat :=
  match primitiveOf? op with
  | some k => primLen k
  | none => tByte * nbytes op

end Sys2Proof.Machine
end

