-- ==== Sys2Proof/Machine/BitSlots.lean ====
section
/-! DEFINITION. bit_slot_sequencer: RDBIT, WR1, WR0 (spec/42_bit_slots.md). Each meaning is the accept effect;
the 75 busy ticks that follow are `advance` (spec/10_state.md R27, R44). -/

namespace Sys2Proof.Machine

/-- RDBIT: "`seq <- (RDBIT, 0, 0, 0)`" (spec/42_bit_slots.md R160). -/
def execRdbit (s : State) : Host.Outcome State Fault Refusal := acceptBus .rdbit none s

/-- WR1: "`seq <- (WR1, 0, 0, 0)`" (spec/42_bit_slots.md R164). -/
def execWr1 (s : State) : Host.Outcome State Fault Refusal := acceptBus .wr1 none s

/-- WR0: "`seq <- (WR0, 0, 0, 0)`" (spec/42_bit_slots.md R166). -/
def execWr0 (s : State) : Host.Outcome State Fault Refusal := acceptBus .wr0 none s

end Sys2Proof.Machine
end

