-- ==== Sys2Proof/Machine/BufferMisc.lean ====
section
/-! DEFINITION. Buffer access and no-operation: NOP, STBUF, LDBUF (spec/46_buffer_misc.md). -/

namespace Sys2Proof.Machine

/-- NOP: "(no state change)" (spec/46_buffer_misc.md R246). -/
def execNop (s : State) : Host.Outcome State Fault Refusal := .next s

/-- STBUF idx, imm: "BUF[idx] <- imm"; `idx` in 9 to 15 "makes the word illegal: `ERR <- 1` and no byte is
written" (spec/46_buffer_misc.md R247). -/
def execStbuf (idx : Nibble) (imm : Byte) (s : State) : Host.Outcome State Fault Refusal :=
  match bufIdx? idx with
  | some i => .next (memWrite i imm s)
  | none => raiseCmdError s

/-- LDBUF idx: "DATA <- BUF[idx]"; `idx` in 9 to 15 "makes the word illegal: `ERR <- 1` and `DATA` is
unchanged" (spec/46_buffer_misc.md R248). -/
def execLdbuf (idx : Nibble) (s : State) : Host.Outcome State Fault Refusal :=
  match bufIdx? idx with
  | some i => .next { s with data := memRead i s }
  | none => raiseCmdError s

end Sys2Proof.Machine
end

