-- ==== Sys2Proof/Machine/ByteTransfer.lean ====
section
/-! DEFINITION. byte_shifter_lsb_first: WRBYTE, RDBYTE (spec/43_byte_transfer.md). Each meaning is the accept
effect; the 600 busy ticks that follow are `advance` (spec/10_state.md R27, R44). -/

namespace Sys2Proof.Machine

/-- WRBYTE imm: "`seq <- (WRBYTE, 0, 0, 0)`, `SH <- imm`" (spec/43_byte_transfer.md R196). -/
def execWrbyte (imm : Byte) (s : State) : Host.Outcome State Fault Refusal :=
  acceptBus .wrbyte (some imm) s

/-- RDBYTE: "`seq <- (RDBYTE, 0, 0, 0)`; `SH` is not changed at acceptance"
(spec/43_byte_transfer.md R197). -/
def execRdbyte (s : State) : Host.Outcome State Fault Refusal := acceptBus .rdbyte none s

end Sys2Proof.Machine
end

