-- ==== Sys2Proof/Machine/Checksum.lean ====
section
/-! DEFINITION. crc8_poly_checker: CRCCLR, CRCUPD, CRCBUF (spec/40_crc8.md). -/

namespace Sys2Proof.Machine

/-- CRCCLR: "CRC <- 0x00" (spec/40_crc8.md R122). -/
def execCrcclr (s : State) : Host.Outcome State Fault Refusal := .next (setCrc crcInit s)

/-- CRCUPD imm: "CRC <- crc8_byte(CRC, imm)" (spec/40_crc8.md R123). -/
def execCrcupd (imm : Byte) (s : State) : Host.Outcome State Fault Refusal :=
  .next (setCrc (crc8Byte s.crc imm) s)

/-- CRCBUF len: "CRC <- crc8([BUF[0], BUF[1], ..., BUF[len-1]])" (spec/40_crc8.md R124); `len` in 10 to 15
"makes the word illegal" and raises the command error (spec/30_encoding.md R100). -/
def execCrcbuf (len : Nibble) (s : State) : Host.Outcome State Fault Refusal :=
  match bufPrefix? len s with
  | some bytes => .next (setCrc (crc8 bytes) s)
  | none => raiseCmdError s

end Sys2Proof.Machine
end

