-- ==== Sys2Proof/Machine/CommandLayer.lean ====
section
/-! DEFINITION. The command layer: CONVT, RDSCR, WRSCR (spec/45_command_layer.md). Each meaning is the accept
effect; the busy ticks that follow are `advance` (spec/10_state.md R27, R44). -/

namespace Sys2Proof.Machine

/-- CONVT: "`seq <- (CONVT, 0, 0, 0)`, `SH <- 0x44`" (spec/45_command_layer.md R225). -/
def execConvt (s : State) : Host.Outcome State Fault Refusal := acceptBus .convt none s

/-- RDSCR: "`seq <- (RDSCR, 0, 0, 0)`, `SH <- 0xBE`" (spec/45_command_layer.md R226). -/
def execRdscr (s : State) : Host.Outcome State Fault Refusal := acceptBus .rdscr none s

/-- WRSCR: "`seq <- (WRSCR, 0, 0, 0)`, `SH <- 0x4E`" (spec/45_command_layer.md R227). -/
def execWrscr (s : State) : Host.Outcome State Fault Refusal := acceptBus .wrscr none s

end Sys2Proof.Machine
end

