-- ==== Sys2Proof/Machine/ResetPresence.lean ====
section
/-! DEFINITION. reset_presence_detector: RESET (spec/41_reset_presence.md). The meaning is the accept effect;
the 1000 busy ticks that follow are `advance` (spec/10_state.md R27, R44). -/

namespace Sys2Proof.Machine

/-- RESET: "On acceptance in tick `n`: `seq <- (RESET, 0, 0, 0)`" (spec/41_reset_presence.md R140). -/
def execReset (s : State) : Host.Outcome State Fault Refusal := acceptBus .reset none s

end Sys2Proof.Machine
end

