-- ==== Sys2Proof/Machine/RomLayer.lean ====
section
/-! DEFINITION. The ROM layer: RDROM, SKIPROM (spec/44_rom_layer.md). Each meaning is the accept effect; the
busy ticks that follow are `advance` (spec/10_state.md R27, R44). -/

namespace Sys2Proof.Machine

/-- RDROM: "`seq <- (RDROM, 0, 0, 0)`, `SH <- 0x33`" (spec/44_rom_layer.md R210). -/
def execRdrom (s : State) : Host.Outcome State Fault Refusal := acceptBus .rdrom none s

/-- SKIPROM: "`seq <- (SKIPROM, 0, 0, 0)`, `SH <- 0xCC`" (spec/44_rom_layer.md R211). -/
def execSkiprom (s : State) : Host.Outcome State Fault Refusal := acceptBus .skiprom none s

end Sys2Proof.Machine
end

