-- ==== Sys2Proof/Machine/Dispatch.lean ====
section
/-! DEFINITION. The accept effect of each command (spec/10_state.md R27), one arm per constructor. -/

namespace Sys2Proof.Machine

-- The accept effect of a decoded command, within one tick. The end of the tick is `step`'s.
def exec (i : Instr) (s : State) : Host.Outcome State Fault Refusal :=
  match i with
  | .nop => Sys2Proof.Machine.execNop s
  | .reset => Sys2Proof.Machine.execReset s
  | .rdbit => Sys2Proof.Machine.execRdbit s
  | .wr0 => Sys2Proof.Machine.execWr0 s
  | .wr1 => Sys2Proof.Machine.execWr1 s
  | .wrbyte imm => Sys2Proof.Machine.execWrbyte imm s
  | .rdbyte => Sys2Proof.Machine.execRdbyte s
  | .rdrom => Sys2Proof.Machine.execRdrom s
  | .skiprom => Sys2Proof.Machine.execSkiprom s
  | .convt => Sys2Proof.Machine.execConvt s
  | .rdscr => Sys2Proof.Machine.execRdscr s
  | .wrscr => Sys2Proof.Machine.execWrscr s
  | .crcclr => Sys2Proof.Machine.execCrcclr s
  | .crcupd imm => Sys2Proof.Machine.execCrcupd imm s
  | .stbuf idx imm => Sys2Proof.Machine.execStbuf idx imm s
  | .ldbuf idx => Sys2Proof.Machine.execLdbuf idx s
  | .crcbuf len => Sys2Proof.Machine.execCrcbuf len s

end Sys2Proof.Machine
end

