-- ==== Sys2Proof/Machine/Step.lean ====
section
/-! DEFINITION. The step of the machine, one tick (spec/10_state.md R21), runs of several ticks, and the state
that offers a given word next. -/

namespace Sys2Proof.Machine

/-- The step on the controller's own state, in the order of priority of spec/60_exceptions.md R265: `rst`
wins; otherwise a busy controller advances and an offered word is ignored; otherwise an offered word is
accepted (spec/10_state.md R21, R27). -/
def stepRegs (s : State) : Host.Outcome State Fault Refusal :=
  if rstAt 0 s then .next (resetRegs s)
  else if s.op = .idle then
    match offered s with
    | none => .next s
    | some (.command i) => exec i s
    | some (.illegal _) => raiseCmdError s
  else advance s

/-- One tick: the step of spec/10_state.md R21, after which the input streams and the tick number move on
(spec/00_scope.md R12). -/
def step (s : State) : Host.Outcome State Fault Refusal := mapNext endTick (stepRegs s)

/-- `n` ticks, stopping at the first fault or refusal. -/
def ticks : Nat → State → Host.Outcome State Fault Refusal
  | 0, s => .next s
  | n + 1, s =>
    match step s with
    | .next s' => ticks n s'
    | .fault r => .fault r
    | .refused r => .refused r

/-- The state in which the very next tick accepts the word `w`: the controller idle, `rst = 0`, and `w` on
the command port (spec/10_state.md R27). Nothing else changes; a controller fetches nothing
(spec/00_scope.md R6), so the word stands on the port (log 3). -/
def State.withFetchWord (s : State) (nbits w : Nat) : State :=
  { s with
    op := .idle, byteIdx := 0, bitIdx := 0, t := 0
    rsts := s.rsts.modifyHead fun _ => false
    cmds := some (BitVec.ofNat 16 (w % 2 ^ nbits)) :: s.cmds.tail }

end Sys2Proof.Machine
end

