-- ==== Sys2Proof/Machine/Assembler.lean ====
section
/-! DEFINITION. The assembler's forms and pseudo-commands, and the host that offers a list of commands in
order (spec/30_encoding.md R103, R104; spec/10_state.md R28). "They are notation for this spec's examples
and define no hardware" (spec/92_eei_decisions.md D30). -/

namespace Sys2Proof.Machine

/-- The pseudo-commands (spec/30_encoding.md R104). -/
inductive Pseudo where
  /-- `WRBIT b`: a write slot with the bit as an argument. -/
  | wrbit (b : Bool)
  /-- `CRC8 b0, b1, ..., bk`: the checksum of bytes given in the program. -/
  | crc8 (bytes : List Byte)
  /-- `CHKROM`: the checksum over a received identification code. -/
  | chkrom
  /-- `CHKSCR`: the checksum over a received scratchpad. -/
  | chkscr
  /-- `STSCR th, tl, cfg`: filling the buffer for WRSCR. -/
  | stscr (th tl cfg : Byte)
deriving DecidableEq, Repr

/-- The exact expansion of a pseudo-command (spec/30_encoding.md R104). -/
def expand : Pseudo → List Instr
  | .wrbit b => [if b then .wr1 else .wr0]
  | .crc8 bytes => .crcclr :: bytes.map .crcupd
  | .chkrom => [.crcbuf 8]
  | .chkscr => [.crcbuf 9]
  | .stscr th tl cfg => [.stbuf 0 th, .stbuf 1 tl, .stbuf 2 cfg]

/-! ### From text to commands -/

/-- The line without its comment: "A `;` starts a comment" (spec/30_encoding.md R103). -/
def dropComment (line : List Char) : List Char := line.takeWhile (fun c => c ≠ ';')

/-- The text without white space on either side. -/
def trimSpace (text : List Char) : List Char :=
  ((text.dropWhile Char.isWhitespace).reverse.dropWhile Char.isWhitespace).reverse

/-- The parts of a text between separators. -/
def splitAtChar (sep : Char) : List Char → List (List Char)
  | [] => [[]]
  | c :: rest =>
    match splitAtChar sep rest with
    | [] => [[c]]
    | part :: parts => if c = sep then [] :: part :: parts else (c :: part) :: parts

/-- The value of a digit; hexadecimal digits in either case (log 16). -/
def digitValue? (base : Nat) (c : Char) : Option Nat :=
  let v := if c.isDigit then c.toNat - '0'.toNat
    else if 'A' ≤ c ∧ c ≤ 'F' then c.toNat - 'A'.toNat + 10
    else if 'a' ≤ c ∧ c ≤ 'f' then c.toNat - 'a'.toNat + 10
    else base
  if v < base then some v else none

/-- A number of one or more digits. -/
def digits? (base : Nat) (text : List Char) : Option Nat :=
  if text.isEmpty then none
  else text.foldl (fun acc c => acc.bind fun n => (digitValue? base c).map fun d => n * base + d) (some 0)

/-- "Numbers are decimal, or hexadecimal with `0x`" (spec/30_encoding.md R103). -/
def number? (text : List Char) : Option Nat :=
  match text with
  | '0' :: 'x' :: rest => digits? 16 rest
  | _ => digits? 10 text

/-- An operand `imm`: 0 to 255 (spec/30_encoding.md R103). -/
def immOperand? (n : Nat) : Option Byte := if n < 256 then some (BitVec.ofNat 8 n) else none

/-- An operand `idx`: 0 to 8 (spec/30_encoding.md R103). -/
def idxOperand? (n : Nat) : Option Nibble := if n ≤ 8 then some (BitVec.ofNat 4 n) else none

/-- An operand `len`: 0 to 9 (spec/30_encoding.md R103). -/
def lenOperand? (n : Nat) : Option Nibble := if n ≤ 9 then some (BitVec.ofNat 4 n) else none

/-- A form without operands. -/
def plainForm (is : List Instr) (operands : List Nat) : Option (List Instr) :=
  if operands.isEmpty then some is else none

/-- A form whose one operand is a byte. -/
def immForm (f : Byte → Instr) (operands : List Nat) : Option (List Instr) :=
  match operands with
  | [n] => (immOperand? n).map fun imm => [f imm]
  | _ => none

/-- `WRBIT b`, with `b` 0 or 1 (spec/30_encoding.md R104). -/
def wrbitForm (operands : List Nat) : Option (List Instr) :=
  match operands with
  | [0] => some (expand (.wrbit false))
  | [1] => some (expand (.wrbit true))
  | _ => none

/-- `STBUF idx, imm` (spec/30_encoding.md R103). -/
def stbufForm (operands : List Nat) : Option (List Instr) :=
  match operands with
  | [n, m] => (idxOperand? n).bind fun idx => (immOperand? m).map fun imm => [.stbuf idx imm]
  | _ => none

/-- `LDBUF idx` (spec/30_encoding.md R103). -/
def ldbufForm (operands : List Nat) : Option (List Instr) :=
  match operands with
  | [n] => (idxOperand? n).map fun idx => [.ldbuf idx]
  | _ => none

/-- `CRCBUF len` (spec/30_encoding.md R103). -/
def crcbufForm (operands : List Nat) : Option (List Instr) :=
  match operands with
  | [n] => (lenOperand? n).map fun len => [.crcbuf len]
  | _ => none

/-- `CRC8 b0, b1, ..., bk`; with no operand it is CRCCLR alone (spec/30_encoding.md R104). -/
def crc8Form (operands : List Nat) : Option (List Instr) :=
  (operands.mapM immOperand?).map fun bytes => expand (.crc8 bytes)

/-- `STSCR th, tl, cfg` (spec/30_encoding.md R104). -/
def stscrForm (operands : List Nat) : Option (List Instr) :=
  match operands.mapM immOperand? with
  | some [th, tl, cfg] => some (expand (.stscr th tl cfg))
  | _ => none

/-- The 17 forms of spec/30_encoding.md R103 and the five pseudo-commands of R104. -/
def asmForms : List (String × (List Nat → Option (List Instr))) :=
  [("NOP", plainForm [.nop]), ("RESET", plainForm [.reset]), ("RDBIT", plainForm [.rdbit]),
    ("WR0", plainForm [.wr0]), ("WR1", plainForm [.wr1]), ("WRBYTE", immForm .wrbyte),
    ("RDBYTE", plainForm [.rdbyte]), ("RDROM", plainForm [.rdrom]), ("SKIPROM", plainForm [.skiprom]),
    ("CONVT", plainForm [.convt]), ("RDSCR", plainForm [.rdscr]), ("WRSCR", plainForm [.wrscr]),
    ("CRCCLR", plainForm [.crcclr]), ("CRCUPD", immForm .crcupd), ("STBUF", stbufForm),
    ("LDBUF", ldbufForm), ("CRCBUF", crcbufForm), ("WRBIT", wrbitForm), ("CRC8", crc8Form),
    ("CHKROM", plainForm (expand .chkrom)), ("CHKSCR", plainForm (expand .chkscr)), ("STSCR", stscrForm)]

/-- The operands of a line: numbers separated by commas. -/
def operands? (text : List Char) : Option (List Nat) :=
  let body := trimSpace text
  if body.isEmpty then some [] else (splitAtChar ',' body).mapM fun part => number? (trimSpace part)

/-- The commands of one line: none for an assembler error, "so the assembler never emits an illegal word"
(spec/30_encoding.md R103); no command for a line that is empty or a comment. -/
def assembleLine (line : List Char) : Option (List Instr) :=
  let text := trimSpace (dropComment line)
  if text.isEmpty then some []
  else
    let name := text.takeWhile fun c => !c.isWhitespace
    match asmForms.find? (fun form => form.1.toList = name) with
    | some form => (operands? (text.dropWhile fun c => !c.isWhitespace)).bind form.2
    | none => none

/-- The commands of a program: "One command per line" (spec/30_encoding.md R103). -/
def assemble (text : String) : Option (List Instr) :=
  ((splitAtChar '\n' text.toList).mapM assembleLine).map List.flatten

/-! ### The host -/

/-- The command port of a host that offers the commands of a list "in order, each as soon as
`cmd_ready = 1`" (spec/30_encoding.md R103): each word in the first idle tick, then nothing for the
command's duration `D` (spec/70_reset_and_hazards.md R310). -/
def offerInOrder (commands : List Instr) : List (Option Word) :=
  commands.flatMap fun i => some (encode i) :: List.replicate (durationOf (busOp i)) none

end Sys2Proof.Machine
end

