-- ==== Sys2Proof/Machine/Line.lean ====
section
/-! DEFINITION. The line outside the controller, for a closed model: the level of the line and the sense of it
(spec/20_memory.md R68, R69, R71). The controller alone takes `ow_in` as a free input (R69). -/

namespace Sys2Proof.Machine

/-- The level of the line: low when the controller drives or a slave pulls, high otherwise
(spec/20_memory.md R68). `true` is high. -/
def lineLevel (oe pull : Bool) : Bool := !(oe || pull)

/-- "With more than one slave on the line, `pull` is the or of all of them" (spec/20_memory.md R71). -/
def anyPull (pulls : List Bool) : Bool := pulls.any id

/-- The state with the line's own level on `ow_in` in this tick: "`ow_in@n = line@n`"
(spec/20_memory.md R69). -/
def onLine (pull : Bool) (s : State) : State :=
  { s with levels := lineLevel (owOe s) pull :: s.levels.tail }

/-- One tick of the controller closed with the line, given what the slaves pull in that tick
(spec/20_memory.md R68, R69). -/
def lineStep (pull : Bool) (s : State) : Host.Outcome State Fault Refusal := step (onLine pull s)

/-- As many ticks of the closed model as `pulls` has entries, this tick's first. -/
def lineTicks : List Bool → State → Host.Outcome State Fault Refusal
  | [], s => .next s
  | pull :: pulls, s =>
    match lineStep pull s with
    | .next s' => lineTicks pulls s'
    | .fault r => .fault r
    | .refused r => .refused r

end Sys2Proof.Machine
end

