-- ==== Sys2Proof/Safety.lean ====
section
/-! DEFINITION. What counts as a safe state and a safe run, in the terms the statements use: the invariant,
the acceptance of a command, a run without reset, and what the line carries. -/

namespace Sys2Proof.Machine

/-- The sequencer position is one the spec gives: all counters 0 when idle; `BYTEIDX` and `BITIDX` 0 and `T`
inside the primitive in a primitive command; each index inside the plan, the byte and the slot in a byte
command (spec/10_state.md R36 to R39). -/
def seqLegal (s : State) : Bool :=
  match primitiveOf? s.op with
  | some k => decide (s.byteIdx = 0) && decide (s.bitIdx = 0) && decide (s.t < primLen k)
  | none =>
    if s.op = .idle then decide (s.byteIdx = 0) && decide (s.bitIdx = 0) && decide (s.t = 0)
    else decide (s.byteIdx < nbytes s.op) && decide (s.bitIdx < 8) && decide (s.t < tSlot)

/-- The invariant: a legal sequencer position and a buffer in canonical form. -/
abbrev Inv (s : State) : Prop := seqLegal s = true ∧ Memory.wf s.buf

/-- This tick accepts the command `i`: "`cmd@n` is a word, `OP@n = IDLE` and `rst@n = 0`", and the word
decodes to `i` (spec/10_state.md R27). -/
abbrev accepts (i : Instr) (s : State) : Prop :=
  s.op = .idle ∧ rstAt 0 s = false ∧ offered s = some (.command i)

/-- `rst = 0` in this tick and the `n - 1` after it. -/
def noReset (n : Nat) (s : State) : Prop := ∀ k, k < n → rstAt k s = false

/-- The registers of `s`, with the input streams and the tick number moved on by `n` ticks. -/
def afterTicks (n : Nat) (s : State) : State :=
  { s with
    rsts := s.rsts.drop n
    cmds := s.cmds.drop n
    rdSels := s.rdSels.drop n
    levels := s.levels.drop n
    tick := s.tick + n }

/-- The registers of `s`, idle, `n` ticks on. -/
def restedAfter (n : Nat) (s : State) : State := seqTo .idle 0 0 0 (afterTicks n s)

/-- `ow_in` is sampled in this tick: "offset `T_RSTL + T_PDS = 565` of a RESET and offset
`T_RDL + T_RDS = 10` of a read slot" (spec/10_state.md R24). -/
def sampleTick (s : State) : Bool :=
  (decide (kind? s = some .reset) && decide (s.t = 565)) ||
    (decide (kind? s = some .rd) && decide (s.t = 10))

/-- This is the last tick of the command in progress: the last offset of a primitive command, or the last
offset of slot 7 of the last byte of a byte command (spec/10_state.md R36 to R39). -/
def lastTick (s : State) : Bool :=
  match primitiveOf? s.op with
  | some k => decide (s.t + 1 = primLen k)
  | none =>
    decide (s.op ≠ .idle) && decide (s.t + 1 = tSlot) && decide (s.bitIdx = 7) &&
      decide (s.byteIdx + 1 = nbytes s.op)

/-- From the tick `n` after this one the controller is busy and the line carries the eight write slots of `v`, slot `j` carrying bit
`j`: low for 5 ticks of the 75 when the bit is 1, for 70 when it is 0 (spec/43_byte_transfer.md R190,
spec/42_bit_slots.md R165, R167). -/
def sendsByte (n : Nat) (v : Byte) (s : State) : Prop :=
  ∀ j, j < 8 → ∀ r, r < 75 → ∃ u, ticks (n + 75 * j + r) s = .next u ∧ busy u = true ∧
    owOe u = decide (r < if v.getLsbD j then 5 else 70)

/-- From the tick `n` after this one the controller is busy and the line carries eight read slots, each driven for its first 5 ticks
(spec/43_byte_transfer.md R190, spec/42_bit_slots.md R161). -/
def readsByte (n : Nat) (s : State) : Prop :=
  ∀ j, j < 8 → ∀ r, r < 75 → ∃ u, ticks (n + 75 * j + r) s = .next u ∧ busy u = true ∧
    owOe u = decide (r < 5)

/-- `w` is the word of the command `i`, which has no `imm` operand: with any other `imm` byte the word is
illegal (spec/30_encoding.md R94, R99). -/
def onlyWord (w : Word) (i : Instr) : Prop :=
  decode w = .command i ∧ ∀ v : Byte, v ≠ 0x00#8 → ∃ c, decode (w ||| v.setWidth 16) = .illegal c

/-- The duration `D` of every command in ticks, as the table of spec/70_reset_and_hazards.md R310 prints
it. -/
def nominalDuration : Instr → Nat
  | .nop => 0
  | .reset => 1000
  | .rdbit => 75
  | .wr0 => 75
  | .wr1 => 75
  | .wrbyte _ => 600
  | .rdbyte => 600
  | .rdrom => 5400
  | .skiprom => 600
  | .convt => 600
  | .rdscr => 6000
  | .wrscr => 2400
  | .crcclr => 0
  | .crcupd _ => 0
  | .stbuf _ _ => 0
  | .ldbuf _ => 0
  | .crcbuf _ => 0

end Sys2Proof.Machine
end

