-- ==== Sys2Proof/Certificates/Slice0/Obligations.lean ====
section
/-! DEFINITION. The statements for the provers, from the numbered rules of the spec. Each docstring says which
rule it formalises. A bare `R<n>` is a rule of spec/; its file is named in OBLIGATIONS.json and
INVENTORY.md. -/

open Sys2Proof Sys2Proof.Machine

/-! ### Encoding -/

/-- R94: the format S words, each the only word of its command; `funct` 0xE and 0xF are illegal. -/
def Obligations.FormatSWordsDecode : Prop :=
  ∀ w : Word,
    (decode w = .command .nop ↔ w = 0x0000#16) ∧
    (decode w = .command .reset ↔ w = 0x0100#16) ∧
    (decode w = .command .rdbit ↔ w = 0x0200#16) ∧
    (decode w = .command .wr0 ↔ w = 0x0300#16) ∧
    (decode w = .command .wr1 ↔ w = 0x0400#16) ∧
    (∀ imm : Byte, decode w = .command (.wrbyte imm) ↔ w = 0x05#8 ++ imm) ∧
    (decode w = .command .rdbyte ↔ w = 0x0600#16) ∧
    (decode w = .command .rdrom ↔ w = 0x0700#16) ∧
    (decode w = .command .skiprom ↔ w = 0x0800#16) ∧
    (decode w = .command .convt ↔ w = 0x0900#16) ∧
    (decode w = .command .rdscr ↔ w = 0x0A00#16) ∧
    (decode w = .command .wrscr ↔ w = 0x0B00#16) ∧
    (decode w = .command .crcclr ↔ w = 0x0C00#16) ∧
    (∀ imm : Byte, decode w = .command (.crcupd imm) ↔ w = 0x0D#8 ++ imm) ∧
    (∀ imm : Byte, w = 0x0E#8 ++ imm ∨ w = 0x0F#8 ++ imm → ∃ c, decode w = .illegal c)

/-- R95: the format B words, with the legal range of each operand. -/
def Obligations.FormatBWordsDecode : Prop :=
  ∀ (w : Word) (n : Nibble) (imm : Byte),
    (decode w = .command (.stbuf n imm) ↔ n.toNat ≤ 8 ∧ w = 0x1#4 ++ n ++ imm) ∧
    (decode w = .command (.ldbuf n) ↔ n.toNat ≤ 8 ∧ w = 0x2#4 ++ n ++ 0x00#8) ∧
    (decode w = .command (.crcbuf n) ↔ n.toNat ≤ 9 ∧ w = 0x3#4 ++ n ++ 0x00#8)

/-- R98: the words 0x0E00 to 0x0FFF and 0x4000 to 0xFFFF decode to no command, and accepting one raises the
command error. -/
def Obligations.ReservedOpcodesRaiseCmdError : Prop :=
  ∀ w : Word, (0x0E00 ≤ w.toNat ∧ w.toNat ≤ 0x0FFF) ∨ 0x4000 ≤ w.toNat →
    (∃ c, decode w = .illegal c) ∧
    ∀ s : State, s.op = .idle → rstAt 0 s = false → cmdAt 0 s = some w →
      step s = .next (endTick { s with err := true })

/-- R99: a word of a command that has no `imm` operand, but with `imm != 0x00`, is illegal, the same as a
reserved opcode. -/
def Obligations.NonzeroUnusedImmRaisesCmdError : Prop :=
  ∀ (i : Instr) (v : Byte), i.wf = true →
    (∀ imm, i ≠ .wrbyte imm) → (∀ imm, i ≠ .crcupd imm) → (∀ idx imm, i ≠ .stbuf idx imm) → v ≠ 0x00#8 →
    (∃ c, decode (encode i ||| v.setWidth 16) = .illegal c) ∧
    ∀ s : State, s.op = .idle → rstAt 0 s = false → cmdAt 0 s = some (encode i ||| v.setWidth 16) →
      step s = .next (endTick { s with err := true })

/-- R100: STBUF and LDBUF with `idx` in 9 to 15 and CRCBUF with `len` in 10 to 15 are illegal, and the access
is refused before it happens. -/
def Obligations.OutOfRangeOperandsRaiseCmdError : Prop :=
  ∀ (n : Nibble) (imm : Byte) (w : Word),
    (9 ≤ n.toNat ∧ (w = 0x1#4 ++ n ++ imm ∨ w = 0x2#4 ++ n ++ imm)) ∨
      (10 ≤ n.toNat ∧ w = 0x3#4 ++ n ++ imm) →
    (∃ c, decode w = .illegal c) ∧
    ∀ s : State, s.op = .idle → rstAt 0 s = false → cmdAt 0 s = some w →
      step s = .next (endTick { s with err := true })

/-- R90 to R97, R102: every word has at most one meaning and every well-formed command exactly one word. -/
def Obligations.DecodeEncodeAgree : Prop :=
  ∀ (w : Word) (i : Instr), decode w = .command i ↔ i.wf = true ∧ encode i = w

/-- R96: the opcode table as data. A word selects at most one of the 17 rows, the decoder gives the command of
the row it selects, and a word that selects none is illegal; the masks are as R96 says. -/
def Obligations.DecoderFollowsOpcodeTable : Prop :=
  opcodeTable.length = 17 ∧
  (∀ r ∈ opcodeTable, r.mask =
    if r.mnemonic = "WRBYTE" ∨ r.mnemonic = "CRCUPD" then 0xFF00#16
    else if r.mnemonic = "STBUF" then 0xF000#16
    else if r.mnemonic = "LDBUF" ∨ r.mnemonic = "CRCBUF" then 0xF0FF#16
    else 0xFFFF#16) ∧
  ∀ w : Word,
    (∃ r i, opcodeTable.filter (fun r => r.selects w) = [r] ∧ decode w = .command i ∧
      i.mnemonic = r.mnemonic) ∨
    (opcodeTable.filter (fun r => r.selects w) = [] ∧ ∃ c, decode w = .illegal c)

/-- R94, R95: one word of each family decodes to the command it stands for. -/
def Obligations.SampleWordsDecode : Prop :=
  decode 0b0000000000000000#16 = .command .nop ∧
  decode 0b0000000100000000#16 = .command .reset ∧
  decode 0b0000001000000000#16 = .command .rdbit ∧
  decode 0b0000010110100101#16 = .command (.wrbyte 0xA5) ∧
  decode 0b0000011100000000#16 = .command .rdrom ∧
  decode 0b0000101100000000#16 = .command .wrscr ∧
  decode 0b0000110100000001#16 = .command (.crcupd 0x01) ∧
  decode 0b0001100000010010#16 = .command (.stbuf 8 0x12) ∧
  decode 0b0011100100000000#16 = .command (.crcbuf 9)

/-! ### The step, reset, acceptance -/

/-- R21, R27: the tick that accepts a word is `exec` of the command it decodes to, after which the input
streams and the tick number move on; an idle tick with no word offered changes nothing else; and
`withFetchWord` offers its word to the very next tick (the model's choice, log 3). -/
def Obligations.StepRunsTheDecodedCommand : Prop :=
  (∀ (s : State) (w : Word) (i : Instr), s.op = .idle → rstAt 0 s = false → cmdAt 0 s = some w →
    decode w = .command i → ∃ u, exec i s = .next u ∧
      step s = .next { u with
        rsts := s.rsts.tail, cmds := s.cmds.tail, rdSels := s.rdSels.tail, levels := s.levels.tail,
        tick := s.tick + 1 }) ∧
  (∀ s : State, s.op = .idle → rstAt 0 s = false → cmdAt 0 s = none →
    step s = .next { s with
      rsts := s.rsts.tail, cmds := s.cmds.tail, rdSels := s.rdSels.tail, levels := s.levels.tail,
      tick := s.tick + 1 }) ∧
  ∀ (s : State) (i : Instr), i.wf = true →
    step (s.withFetchWord 16 (encode i).toNat) =
      mapNext endTick (exec i (s.withFetchWord 16 (encode i).toNat))

/-- R290: `rst = 1` gives `RESET_STATE`, whatever the state, the word offered and `ow_in` are; `cmd_ready = 0`
in that tick; the outputs take their reset values from the next tick. -/
def Obligations.RstGivesResetState : Prop :=
  ∀ s : State, rstAt 0 s = true → cmdReady s = false ∧
    ∃ t, step s = .next t ∧
      t.pres = false ∧ t.rbit = false ∧ t.err = false ∧ t.data = 0x00#8 ∧ t.crc = 0x00#8 ∧
      (∀ i : BufIdx, memRead i t = 0x00#8) ∧ t.buf = [] ∧ t.op = .idle ∧ t.byteIdx = 0 ∧ t.bitIdx = 0 ∧
      t.t = 0 ∧ t.sh = 0x00#8 ∧
      owOe t = false ∧ status t = 0x10#8 ∧ readPort 1 t = 0x00#8 ∧ readPort 2 t = 0x00#8 ∧
      t = endTick (resetRegs s)

/-- R45: every register after reset, and the outputs, `cmd_ready` once `rst = 0`. -/
def Obligations.ResetStateAndOutputs : Prop :=
  State.reset.pres = false ∧ State.reset.rbit = false ∧ State.reset.err = false ∧
  State.reset.data = 0x00#8 ∧ State.reset.crc = 0x00#8 ∧ (∀ i : BufIdx, memRead i State.reset = 0x00#8) ∧
  State.reset.op = .idle ∧ State.reset.byteIdx = 0 ∧ State.reset.bitIdx = 0 ∧ State.reset.t = 0 ∧
  State.reset.sh = 0x00#8 ∧
  owOe State.reset = false ∧ owOut State.reset = false ∧
  (rstAt 0 State.reset = false → cmdReady State.reset = true) ∧
  readPort 0 State.reset = 0x10#8 ∧ readPort 1 State.reset = 0x00#8 ∧ readPort 2 State.reset = 0x00#8

/-- R260: accepting an illegal word sets `ERR` and changes nothing else, the port is ready again in the next
tick, and later ticks go as if `ERR` were 0. -/
def Obligations.IllegalWordSetsErrOnly : Prop :=
  (∀ (s : State) (w : Word) (c : IllegalCause), s.op = .idle → rstAt 0 s = false → cmdAt 0 s = some w →
    decode w = .illegal c →
    step s = .next (endTick { s with err := true }) ∧
      cmdReady (endTick { s with err := true }) = !rstAt 1 s) ∧
  ∀ (s t : State), step { s with err := false } = .next t →
    ∃ u, step { s with err := true } = .next u ∧ { u with err := t.err } = t

/-- R28: a word offered in a busy tick is not accepted, not stored and has no effect. -/
def Obligations.BusyTickIgnoresOfferedWord : Prop :=
  ∀ (s : State) (c : Option Word), s.op ≠ .idle →
    cmdReady s = false ∧ step { s with cmds := c :: s.cmds.tail } = step s

/-- R24: `ow_in` is read in exactly the two kinds of sample tick, in each of which its two values give
different states; in every other tick its value has no effect on any state. -/
def Obligations.LineIsReadInSampleTicksOnly : Prop :=
  (∀ (s : State) (level : Bool), ¬(s.op = .reset ∧ s.t = 565) → ¬(kind? s = some .rd ∧ s.t = 10) →
    step { s with levels := level :: s.levels.tail } = step s) ∧
  ∀ s : State, rstAt 0 s = false → s.op ≠ .idle →
    (s.op = .reset ∧ s.t = 565) ∨ (kind? s = some .rd ∧ s.t = 10) →
    step { s with levels := true :: s.levels.tail } ≠ step { s with levels := false :: s.levels.tail }

/-- The spec derives it: "OWC never samples in a tick in which it drives" (R69), so on the closed line a
sample sees what the slaves pull. -/
def Obligations.NeverSamplesWhileDriving : Prop :=
  ∀ (s : State) (pull : Bool), sampleTick s = true →
    owOe s = false ∧ owInAt 0 (onLine pull s) = !pull

/-! ### The outputs -/

/-- R29: the read port, which has no effect on any state. -/
def Obligations.ReadPortSelectsAndHasNoEffect : Prop :=
  ∀ (s : State) (sel : BitVec 2),
    readPort 0 s = status s ∧ readPort 1 s = s.data ∧ readPort 2 s = s.crc ∧ readPort 3 s = 0x00#8 ∧
    rdData { s with rdSels := sel :: s.rdSels.tail } = readPort sel s ∧
    step { s with rdSels := sel :: s.rdSels.tail } = step s

/-- R30: the bits of STATUS, and its value after reset; with the first two sentences of R41, when `BUSY` and
`cmd_ready` are 1. -/
def Obligations.StatusBitsAndReady : Prop :=
  (∀ s : State,
    (status s).getLsbD 0 = decide (s.op ≠ .idle) ∧ (status s).getLsbD 1 = s.pres ∧
    (status s).getLsbD 2 = s.rbit ∧ (status s).getLsbD 3 = s.err ∧
    (status s).getLsbD 4 = decide (s.crc = 0x00#8) ∧
    (status s).getLsbD 5 = false ∧ (status s).getLsbD 6 = false ∧ (status s).getLsbD 7 = false) ∧
  status State.reset = 0x10#8 ∧
  ∀ s : State, (busy s = true ↔ s.op ≠ .idle) ∧
    (cmdReady s = true ↔ s.op = .idle ∧ rstAt 0 s = false)

/-- R40: the direction output as a function of the state, with the low length of each primitive; every
primitive starts driven and ends released. -/
def Obligations.DirectionOutputFollowsOffset : Prop :=
  (∀ s : State, s.op = .idle → owOe s = false) ∧
  (∀ s : State, s.op ≠ .idle → kind? s = some .reset → owOe s = decide (s.t < 500)) ∧
  (∀ s : State, s.op ≠ .idle → kind? s = some .rd → owOe s = decide (s.t < 5)) ∧
  (∀ s : State, s.op ≠ .idle → kind? s = some .w1 → owOe s = decide (s.t < 5)) ∧
  (∀ s : State, s.op ≠ .idle → kind? s = some .w0 → owOe s = decide (s.t < 70)) ∧
  ∀ s : State, Inv s → s.op ≠ .idle → ∃ k, kind? s = some k ∧
    (s.t = 0 → owOe s = true) ∧ (s.t + 1 = primLen k → owOe s = false)

/-- R192: the primitive in progress, which is constant through each primitive. -/
def Obligations.PrimitiveInProgress : Prop :=
  ∀ s : State,
    (s.op = .reset → kind? s = some .reset) ∧ (s.op = .rdbit → kind? s = some .rd) ∧
    (s.op = .wr1 → kind? s = some .w1) ∧ (s.op = .wr0 → kind? s = some .w0) ∧
    (∀ item, (plan s.op)[s.byteIdx]? = some item →
      kind? s = some (if isWriteItem item then (if s.sh.getLsbD 0 then .w1 else .w0) else .rd)) ∧
    ∀ (k : Prim) (t : State), kind? s = some k → rstAt 0 s = false → s.t + 1 < primLen k →
      step s = .next t → kind? t = some k

/-! ### The zero-time commands -/

/-- R246: NOP changes no state and takes one tick of the command port; 0x00ii with `ii != 0x00` is illegal. -/
def Obligations.NopChangesNothing : Prop :=
  (∀ s : State, exec .nop s = .next s) ∧
  (∀ s : State, accepts .nop s → step s = .next (endTick s) ∧ cmdReady (endTick s) = !rstAt 1 s) ∧
  onlyWord 0x0000#16 .nop

/-- From R247: STBUF writes the byte `imm` at `idx` and nothing else. With `idx` in 9 to 15 the word is illegal,
and `exec` of that command, which no word decodes to, raises the command error and writes no byte: the model's
choice (log 8). -/
def Obligations.StbufStoresOneByte : Prop :=
  (∀ (idx : Nibble) (imm : Byte) (s : State) (i : BufIdx), idx.toNat = i.val → Memory.wf s.buf →
    decode (0x1#4 ++ idx ++ imm) = .command (.stbuf idx imm) ∧
    ∃ t, exec (.stbuf idx imm) s = .next t ∧ memRead i t = imm ∧
      (∀ j : BufIdx, j ≠ i → memRead j t = memRead j s) ∧ { t with buf := s.buf } = s) ∧
  ∀ (idx : Nibble) (imm : Byte) (s : State), 9 ≤ idx.toNat →
    (∃ c, decode (0x1#4 ++ idx ++ imm) = .illegal c) ∧
      exec (.stbuf idx imm) s = .next { s with err := true }

/-- From R248: LDBUF loads `BUF[idx]` into `DATA` and changes nothing else; with `idx` in 9 to 15, or `imm` not
0x00, the word is illegal. That `exec` of LDBUF with `idx` in 9 to 15, which no word decodes to, raises the
command error and leaves `DATA` as it was is the model's choice (log 8). -/
def Obligations.LdbufLoadsOneByte : Prop :=
  (∀ (idx : Nibble) (s : State) (i : BufIdx), idx.toNat = i.val →
    decode (0x2#4 ++ idx ++ 0x00#8) = .command (.ldbuf idx) ∧
    exec (.ldbuf idx) s = .next { s with data := memRead i s }) ∧
  (∀ (idx : Nibble) (s : State), 9 ≤ idx.toNat → exec (.ldbuf idx) s = .next { s with err := true }) ∧
  ∀ (idx : Nibble) (imm : Byte), 9 ≤ idx.toNat ∨ imm ≠ 0x00#8 →
    ∃ c, decode (0x2#4 ++ idx ++ imm) = .illegal c

/-- R122: CRCCLR sets `CRC` to 0x00 and changes nothing else. -/
def Obligations.CrcclrClearsAccumulator : Prop :=
  (∀ s : State, exec .crcclr s = .next { s with crc := 0x00#8 } ∧ crcz { s with crc := 0x00#8 } = true) ∧
  onlyWord 0x0C00#16 .crcclr

/-- R123: CRCUPD takes one byte into `CRC` and changes nothing else. -/
def Obligations.CrcupdTakesOneByte : Prop :=
  (∀ (imm : Byte) (s : State), exec (.crcupd imm) s = .next { s with crc := crc8Byte s.crc imm } ∧
    decode (0x0D#8 ++ imm) = .command (.crcupd imm)) ∧
  (∀ s : State, exec (.crcupd s.crc) s = .next { s with crc := 0x00#8 }) ∧
  ∀ s : State, s.crc = 0x00#8 → exec (.crcupd 0x01#8) s = .next { s with crc := 0x5E#8 }

/-- From R124: CRCBUF sets `CRC` to the checksum of the first `len` bytes of `BUF`, from 0x00, and changes
nothing else; `len` in 10 to 15, or `imm` not 0x00, makes the word illegal. That `exec` of CRCBUF with `len`
in 10 to 15, which no word decodes to, raises the command error and leaves `CRC` as it was is the model's
choice (log 8). -/
def Obligations.CrcbufChecksBufferPrefix : Prop :=
  (∀ len : Nibble, len.toNat ≤ 9 → decode (0x3#4 ++ len ++ 0x00#8) = .command (.crcbuf len)) ∧
  (∀ (len : Nibble) (s : State), len.toNat ≤ 9 →
    exec (.crcbuf len) s = .next { s with
      crc := crc8 (([0, 1, 2, 3, 4, 5, 6, 7, 8].map fun i : BufIdx => memRead i s).take len.toNat) }) ∧
  (∀ s : State, exec (.crcbuf 0) s = .next { s with crc := 0x00#8 }) ∧
  (∀ (len : Nibble) (s : State), 10 ≤ len.toNat → exec (.crcbuf len) s = .next { s with err := true }) ∧
  ∀ (len : Nibble) (imm : Byte), 10 ≤ len.toNat ∨ imm ≠ 0x00#8 →
    ∃ c, decode (0x3#4 ++ len ++ imm) = .illegal c

/-- R120: `crc8_byte` is eight iterations from `acc ^ b`, each a right shift by one, exclusive-ored with 0x8C
when the low bit before the shift is set. -/
def Obligations.ChecksumByteStep : Prop :=
  ∀ acc b : Byte, ∃ a : Nat → Byte, a 0 = acc ^^^ b ∧
    (∀ k, k < 8 → a (k + 1) = if (a k).getLsbD 0 then (a k >>> 1) ^^^ 0x8C#8 else a k >>> 1) ∧
    crc8Byte acc b = a 8

/-- R121: `crc8` folds the byte step over the bytes in order from 0x00, and its check value. -/
def Obligations.ChecksumFoldAndCheckValue : Prop :=
  crc8 [] = 0x00#8 ∧
  (∀ (bytes : List Byte) (b : Byte), crc8 (bytes ++ [b]) = crc8Byte (crc8 bytes) b) ∧
  crc8 [0x31, 0x32, 0x33, 0x34, 0x35, 0x36, 0x37, 0x38, 0x39] = 0xA1#8

/-- The two laws of R126, which "follow from rules R120 and R121": appending the checksum gives zero, so
CRCBUF over a buffer whose last byte taken is the checksum of the ones before leaves `CRC = 0x00`, and so does
one over an all-zero buffer; and the byte step depends on `acc ^ b` alone. -/
def Obligations.AppendedChecksumGivesZero : Prop :=
  (∀ bytes : List Byte, crc8 (bytes ++ [crc8 bytes]) = 0x00#8) ∧
  (∀ acc b : Byte, crc8Byte acc b = crc8Byte (acc ^^^ b) 0x00#8) ∧
  (∀ s : State, memRead 7 s = crc8 ([0, 1, 2, 3, 4, 5, 6].map fun i : BufIdx => memRead i s) →
    exec (.crcbuf 8) s = .next { s with crc := 0x00#8 }) ∧
  (∀ s : State, memRead 8 s = crc8 ([0, 1, 2, 3, 4, 5, 6, 7].map fun i : BufIdx => memRead i s) →
    exec (.crcbuf 9) s = .next { s with crc := 0x00#8 }) ∧
  ∀ s : State, (∀ i : BufIdx, memRead i s = 0x00#8) →
    exec (.crcbuf 8) s = .next { s with crc := 0x00#8 } ∧ exec (.crcbuf 9) s = .next { s with crc := 0x00#8 }

/-- CRCCLR and then CRCUPD for each byte of any sequence (the expansion of `CRC8`, R104), offered one per
tick, leave `CRC = crc8` of the sequence and change nothing else. The spec derives it: "The sequence CRCCLR,
CRCUPD `s0`, ..., CRCUPD `s(L-1)` leaves `CRC = crc8(s)`" (R123). -/
def Obligations.StreamedChecksumIsTheFunction : Prop :=
  ∀ (bytes : List Byte) (s : State), s.op = .idle → noReset (bytes.length + 1) s →
    s.cmds = (expand (.crc8 bytes)).map (fun i => some (encode i)) →
    ticks (bytes.length + 1) s = .next { afterTicks (bytes.length + 1) s with crc := crc8 bytes }

/-! ### Acceptance of the bus commands -/

/-- R140, R160, R164, R166: a primitive command is accepted by writing the sequencer position; no other
register changes. -/
def Obligations.PrimitiveCommandsAreAccepted : Prop :=
  ∀ s : State,
    exec .reset s = .next { s with op := .reset, byteIdx := 0, bitIdx := 0, t := 0 } ∧
    exec .rdbit s = .next { s with op := .rdbit, byteIdx := 0, bitIdx := 0, t := 0 } ∧
    exec .wr1 s = .next { s with op := .wr1, byteIdx := 0, bitIdx := 0, t := 0 } ∧
    exec .wr0 s = .next { s with op := .wr0, byteIdx := 0, bitIdx := 0, t := 0 }

/-- R193, R196, R197, R210, R211, R225 to R227: a byte command is accepted by writing the sequencer position
and, for all but RDBYTE, loading the shifter with its first byte; no other register changes. -/
def Obligations.ByteCommandsAreAccepted : Prop :=
  ∀ (imm : Byte) (s : State),
    exec (.wrbyte imm) s = .next { s with op := .wrbyte, byteIdx := 0, bitIdx := 0, t := 0, sh := imm } ∧
    exec .rdbyte s = .next { s with op := .rdbyte, byteIdx := 0, bitIdx := 0, t := 0 } ∧
    exec .rdrom s = .next { s with op := .rdrom, byteIdx := 0, bitIdx := 0, t := 0, sh := 0x33#8 } ∧
    exec .skiprom s = .next { s with op := .skiprom, byteIdx := 0, bitIdx := 0, t := 0, sh := 0xCC#8 } ∧
    exec .convt s = .next { s with op := .convt, byteIdx := 0, bitIdx := 0, t := 0, sh := 0x44#8 } ∧
    exec .rdscr s = .next { s with op := .rdscr, byteIdx := 0, bitIdx := 0, t := 0, sh := 0xBE#8 } ∧
    exec .wrscr s = .next { s with op := .wrscr, byteIdx := 0, bitIdx := 0, t := 0, sh := 0x4E#8 }

/-! ### The busy tick -/

/-- R44, R142, R162, R163: the busy tick of RESET samples presence at offset 565 and that of RDBIT the data
bit at offset 10, and only there; every other register stays, but for the position. -/
def Obligations.PrimitiveTicksSampleOnce : Prop :=
  (∀ s : State, s.op = .reset → rstAt 0 s = false → s.t < 1000 →
    step s = .next (endTick { s with
      pres := if s.t = 565 then !owInAt 0 s else s.pres
      t := if s.t < 999 then s.t + 1 else 0
      op := if s.t < 999 then .reset else .idle })) ∧
  (∀ s : State, s.op = .rdbit → rstAt 0 s = false → s.t < 75 →
    step s = .next (endTick { s with
      rbit := if s.t = 10 then owInAt 0 s else s.rbit
      t := if s.t < 74 then s.t + 1 else 0
      op := if s.t < 74 then .rdbit else .idle })) ∧
  ∀ s : State, s.op = .wr0 ∨ s.op = .wr1 → rstAt 0 s = false → s.t < 75 →
    step s = .next (endTick { s with
      t := if s.t < 74 then s.t + 1 else 0
      op := if s.t < 74 then s.op else .idle })

/-- R194: the sample of a read slot inside a read byte shifts the shifter right and puts the level in bit 7;
`RBIT` is not written. -/
def Obligations.ByteReadSampleShiftsIn : Prop :=
  ∀ (s : State) (item : Item), (plan s.op)[s.byteIdx]? = some item → isWriteItem item = false →
    rstAt 0 s = false → s.t = 10 →
    ∃ v : Byte, v.getLsbD 7 = owInAt 0 s ∧ (∀ j, j < 7 → v.getLsbD j = s.sh.getLsbD (j + 1)) ∧
      step s = .next (endTick { s with sh := v, t := 11 })

/-- R44, R195: a tick of a slot of a byte command that is neither the sample of a read slot nor the last only
counts; the last tick of slots 0 to 6 goes on to the next slot and shifts a write byte. -/
def Obligations.SlotTicksInsideAByte : Prop :=
  ∀ (s : State) (item : Item), (plan s.op)[s.byteIdx]? = some item → rstAt 0 s = false →
    (s.t < 74 → (isWriteItem item = true ∨ s.t ≠ 10) →
      step s = .next (endTick { s with t := s.t + 1 })) ∧
    (s.t = 74 → s.bitIdx < 7 →
      step s = .next (endTick { s with
        t := 0
        bitIdx := s.bitIdx + 1
        sh := if isWriteItem item then s.sh >>> 1 else s.sh }))

/-- R195: the end of slot 7 of a byte: a read byte goes to its destination, and the next byte starts, with its
value loaded if it is a write byte, or the command is complete. -/
def Obligations.SlotEndCompletesAByte : Prop :=
  ∀ (s : State) (item : Item), Inv s → (plan s.op)[s.byteIdx]? = some item → rstAt 0 s = false →
    s.t = 74 → s.bitIdx = 7 →
    ∃ t, step s = .next (endTick t) ∧
      (item = .rd → t.data = s.sh) ∧ (item ≠ .rd → t.data = s.data) ∧
      (∀ i, item = .rb i → memRead i t = s.sh) ∧
      (∀ j, item ≠ .rb j → memRead j t = memRead j s) ∧
      (∀ next, (plan s.op)[s.byteIdx + 1]? = some next →
        t.op = s.op ∧ t.byteIdx = s.byteIdx + 1 ∧
        (∀ c, next = .wc c → t.sh = c) ∧ (∀ i, next = .wb i → t.sh = memRead i s) ∧
        (isWriteItem next = false → t.sh = if isWriteItem item then s.sh >>> 1 else s.sh)) ∧
      (nbytes s.op = s.byteIdx + 1 →
        t.op = .idle ∧ t.byteIdx = 0 ∧ t.sh = if isWriteItem item then s.sh >>> 1 else s.sh) ∧
      { t with data := s.data, buf := s.buf, op := s.op, byteIdx := s.byteIdx, sh := s.sh } =
        { s with t := 0, bitIdx := 0 }

/-! ### Who writes what -/

/-- R31: `PRES` is written by RESET at offset 565 only (and by `rst`), with 1 for a low line, and read by no
command. -/
def Obligations.PresWrittenByResetOnly : Prop :=
  (∀ s t : State, step s = .next t → t.pres ≠ s.pres →
    rstAt 0 s = true ∨ (s.op = .reset ∧ s.t = 565 ∧ t.pres = !owInAt 0 s)) ∧
  (∀ s : State, s.op = .reset → s.t = 565 → rstAt 0 s = false →
    ∃ t, step s = .next t ∧ t.pres = !owInAt 0 s) ∧
  (∀ (s t : State) (b : Bool), step s = .next t →
    ∃ u, step { s with pres := b } = .next u ∧ { u with pres := t.pres } = t) ∧
  State.reset.pres = false

/-- R32: `RBIT` is written by the command RDBIT at offset 10 only (and by `rst`), with the sensed level, and
read by no command. -/
def Obligations.RbitWrittenByRdbitOnly : Prop :=
  (∀ s t : State, step s = .next t → t.rbit ≠ s.rbit →
    rstAt 0 s = true ∨ (s.op = .rdbit ∧ s.t = 10 ∧ t.rbit = owInAt 0 s)) ∧
  (∀ s : State, s.op = .rdbit → s.t = 10 → rstAt 0 s = false →
    ∃ t, step s = .next t ∧ t.rbit = owInAt 0 s) ∧
  (∀ (s t : State) (b : Bool), step s = .next t →
    ∃ u, step { s with rbit := b } = .next u ∧ { u with rbit := t.rbit } = t) ∧
  State.reset.rbit = false

/-- R33: `DATA` is written by RDBYTE in its last tick and by LDBUF only (and by `rst`), and read by no
command. -/
def Obligations.DataWrittenByRdbyteAndLdbufOnly : Prop :=
  (∀ s t : State, Inv s → step s = .next t → t.data ≠ s.data →
    rstAt 0 s = true ∨ (s.op = .rdbyte ∧ lastTick s = true ∧ t.data = s.sh) ∨
      ∃ (idx : Nibble) (i : BufIdx), accepts (.ldbuf idx) s ∧ idx.toNat = i.val ∧ t.data = memRead i s) ∧
  (∀ s : State, s.op = .rdbyte → lastTick s = true → rstAt 0 s = false →
    ∃ t, step s = .next t ∧ t.data = s.sh) ∧
  (∀ (s : State) (idx : Nibble) (i : BufIdx), accepts (.ldbuf idx) s → idx.toNat = i.val →
    ∃ t, step s = .next t ∧ t.data = memRead i s) ∧
  (∀ (s t : State) (v : Byte), step s = .next t →
    ∃ u, step { s with data := v } = .next u ∧ { u with data := t.data } = t) ∧
  State.reset.data = 0x00#8

/-- R34: `CRC` is written by CRCCLR, CRCUPD and CRCBUF only (and by `rst`); nothing but `CRC` depends on it;
`CRCZ` is derived from it. -/
def Obligations.CrcWrittenByCrcCommandsOnly : Prop :=
  (∀ s t : State, step s = .next t → t.crc ≠ s.crc →
    rstAt 0 s = true ∨ accepts .crcclr s ∨ (∃ imm, accepts (.crcupd imm) s) ∨
      ∃ len, accepts (.crcbuf len) s) ∧
  (∀ (s t : State) (v : Byte), step s = .next t →
    ∃ u, step { s with crc := v } = .next u ∧ { u with crc := t.crc } = t ∧
      ((∀ imm, ¬accepts (.crcupd imm) s) → t.crc ≠ s.crc → u.crc = t.crc)) ∧
  (∀ s : State, crcz s = true ↔ s.crc = 0x00#8) ∧
  State.reset.crc = 0x00#8 ∧ crcz State.reset = true

/-- R35: `ERR` is set by the acceptance of an illegal word, cleared by nothing but `rst`, and read by no
command. -/
def Obligations.ErrIsStickyUntilRst : Prop :=
  (∀ s t : State, rstAt 0 s = false → step s = .next t →
    (t.err = true ↔ s.err = true ∨ (s.op = .idle ∧ ∃ c, offered s = some (.illegal c)))) ∧
  (∀ s t : State, rstAt 0 s = true → step s = .next t → t.err = false) ∧
  ∀ (s t : State) (b : Bool), step s = .next t →
    ∃ u, step { s with err := b } = .next u ∧ { u with err := t.err } = t

/-- R43: a byte of `BUF` is written by an accepted STBUF, by RDROM (indices 0 to 7) and by RDSCR, in the last
tick of its byte, only (and by `rst`); `BUF` is read by LDBUF, CRCBUF and WRSCR (indices 0 to 2) only. -/
def Obligations.BufWrittenByThreeCommandsOnly : Prop :=
  (∀ (s t : State) (i : BufIdx), Inv s → step s = .next t → memRead i t ≠ memRead i s →
    rstAt 0 s = true ∨
    (∃ (idx : Nibble) (imm : Byte), accepts (.stbuf idx imm) s ∧ idx.toNat = i.val ∧ memRead i t = imm) ∨
    (((s.op = .rdrom ∧ i.val < 8) ∨ s.op = .rdscr) ∧ s.byteIdx = i.val + 1 ∧ s.bitIdx = 7 ∧ s.t = 74 ∧
      memRead i t = s.sh)) ∧
  ∀ (s t : State) (m : Memory), step s = .next t →
    (s.op = .wrscr → ∀ i, i < 3 → Memory.get i m = Memory.get i s.buf) →
    (∀ idx, ¬accepts (.ldbuf idx) s) → (∀ len, ¬accepts (.crcbuf len) s) →
    ∃ u, step { s with buf := m } = .next u ∧ { u with buf := t.buf } = t

/-- R42: the zero-time commands, the acceptance and the ticks of the primitive commands, and an idle tick
leave `SH` unchanged. -/
def Obligations.ShifterKeptOutsideByteCommands : Prop :=
  (∀ s t : State, rstAt 0 s = false → primitiveOf? s.op ≠ none → step s = .next t → t.sh = s.sh) ∧
  (∀ s t : State, rstAt 0 s = false → s.op = .idle → (∀ i, ¬accepts i s) → step s = .next t →
    t.sh = s.sh) ∧
  ∀ (s t : State) (i : Instr), accepts i s → plan (busOp i) = [] → step s = .next t → t.sh = s.sh

/-- R36: `OP` is set by the acceptance of a bus command, set back to `IDLE` by its last tick or by `rst`, and
changes at no other time. -/
def Obligations.OpChangesOnlyAtCommandEnds : Prop :=
  (∀ s t : State, Inv s → step s = .next t → t.op ≠ s.op →
    (rstAt 0 s = true ∧ t.op = .idle) ∨ (∃ i, accepts i s ∧ t.op = busOp i) ∨
      (lastTick s = true ∧ t.op = .idle)) ∧
  (∀ (s : State) (i : Instr), accepts i s → ∃ t, step s = .next t ∧ t.op = busOp i) ∧
  (∀ s t : State, rstAt 0 s = true → step s = .next t → t.op = .idle) ∧
  ∀ s : State, Inv s → rstAt 0 s = false → lastTick s = true → ∃ t, step s = .next t ∧ t.op = .idle

/-! ### Invariants -/

/-- R36 to R39, R45: the reset state meets the invariant. -/
def Obligations.ResetMeetsTheInvariant : Prop := Inv State.reset

/-- R36 to R39, R60: every tick keeps the sequencer position legal and the buffer in canonical form, from
every state that has both. -/
def Obligations.EveryTickKeepsTheInvariant : Prop :=
  ∀ s t : State, Inv s → step s = .next t → Inv t

/-- R37 to R39: the ranges of the hidden counters, and all of them 0 when idle. -/
def Obligations.HiddenCountersStayInRange : Prop :=
  ∀ s : State, Inv s →
    s.byteIdx ≤ 9 ∧ s.bitIdx ≤ 7 ∧ s.t ≤ 999 ∧
    (s.op = .idle → s.byteIdx = 0 ∧ s.bitIdx = 0 ∧ s.t = 0) ∧
    (primitiveOf? s.op ≠ none → s.byteIdx = 0 ∧ s.bitIdx = 0) ∧
    (s.op ≠ .reset → s.t ≤ 74)

/-- From R261 and R267, which leave no way to stop: no tick of a run faults or is refused, from any state with
the invariant, whatever the host, the environment and the reset source do. -/
def Obligations.NoRunEverStops : Prop :=
  ∀ (n : Nat) (s : State), Inv s → ∃ t, ticks n s = .next t ∧ Inv t

/-! ### Whole commands, tick by tick -/

/-- The spec derives it (R310, R41): every command, accepted in this tick, is busy for exactly its duration
`D` and idle in the tick after, with the command port ready again (unless `rst`). -/
def Obligations.EveryCommandLastsItsDuration : Prop :=
  ∀ (i : Instr) (s : State), accepts i s → noReset (nominalDuration i + 1) s →
    (∀ k, 1 ≤ k → k ≤ nominalDuration i →
      ∃ u, ticks k s = .next u ∧ busy u = true ∧ cmdReady u = false) ∧
    ∃ u, ticks (nominalDuration i + 1) s = .next u ∧ busy u = false ∧
      cmdReady u = !rstAt (nominalDuration i + 1) s

/-- R140 to R143: RESET drives the line for 500 ticks and releases it for 500, samples `ow_in` once, 566 ticks
after acceptance, and leaves every other register as it was. -/
def Obligations.ResetCommandDetectsPresence : Prop :=
  onlyWord 0x0100#16 .reset ∧ ∀ s : State, accepts .reset s → noReset 1001 s →
    step s = .next (endTick { s with op := .reset, byteIdx := 0, bitIdx := 0, t := 0 }) ∧
    (∀ k, 1 ≤ k → k ≤ 1000 → ∃ u, ticks k s = .next u ∧ busy u = true ∧ owOe u = decide (k ≤ 500) ∧
      u.pres = if k ≤ 566 then s.pres else !owInAt 566 s) ∧
    ticks 1001 s = .next { restedAfter 1001 s with pres := !owInAt 566 s }

/-- R160, R163: RDBIT drives the line for 5 ticks and releases it for 70, samples `ow_in` once, 11 ticks after
acceptance, into `RBIT`, and leaves every other register as it was. -/
def Obligations.RdbitCommandReadsOneBit : Prop :=
  onlyWord 0x0200#16 .rdbit ∧ ∀ s : State, accepts .rdbit s → noReset 76 s →
    step s = .next (endTick { s with op := .rdbit, byteIdx := 0, bitIdx := 0, t := 0 }) ∧
    (∀ k, 1 ≤ k → k ≤ 75 → ∃ u, ticks k s = .next u ∧ busy u = true ∧ owOe u = decide (k ≤ 5) ∧
      u.rbit = if k ≤ 11 then s.rbit else owInAt 11 s) ∧
    ticks 76 s = .next { restedAfter 76 s with rbit := owInAt 11 s }

/-- R164, R166: WR1 drives the line for 5 ticks of 75 and WR0 for 70; neither changes a register. -/
def Obligations.WriteSlotCommandsShapeTheLine : Prop :=
  onlyWord 0x0400#16 .wr1 ∧ onlyWord 0x0300#16 .wr0 ∧ ∀ s : State, noReset 76 s →
    (accepts .wr1 s →
      step s = .next (endTick { s with op := .wr1, byteIdx := 0, bitIdx := 0, t := 0 }) ∧
      (∀ k, 1 ≤ k → k ≤ 75 → ∃ u, ticks k s = .next u ∧ busy u = true ∧ owOe u = decide (k ≤ 5)) ∧
      ticks 76 s = .next (restedAfter 76 s)) ∧
    (accepts .wr0 s →
      step s = .next (endTick { s with op := .wr0, byteIdx := 0, bitIdx := 0, t := 0 }) ∧
      (∀ k, 1 ≤ k → k ≤ 75 → ∃ u, ticks k s = .next u ∧ busy u = true ∧ owOe u = decide (k ≤ 70)) ∧
      ticks 76 s = .next (restedAfter 76 s))

/-- R196: WRBYTE sends its byte, least-significant bit first, and leaves `SH` at 0x00 and every other register
as it was. -/
def Obligations.WrbyteCommandSendsItsByte : Prop :=
  (∀ imm : Byte, decode (0x05#8 ++ imm) = .command (.wrbyte imm)) ∧
  ∀ (s : State) (imm : Byte), accepts (.wrbyte imm) s → noReset 601 s →
    step s = .next (endTick { s with op := .wrbyte, byteIdx := 0, bitIdx := 0, t := 0, sh := imm }) ∧
    sendsByte 1 imm s ∧ ticks 601 s = .next { restedAfter 601 s with sh := 0x00#8 }

/-- R197: RDBYTE receives a byte into `DATA`, bit `j` sampled `11 + 75 * j` ticks after acceptance; until the
end `DATA` keeps its old value; `SH` is left equal to `DATA` and every other register as it was. -/
def Obligations.RdbyteCommandReceivesAByte : Prop :=
  onlyWord 0x0600#16 .rdbyte ∧ ∀ s : State, accepts .rdbyte s → noReset 601 s →
    step s = .next (endTick { s with op := .rdbyte, byteIdx := 0, bitIdx := 0, t := 0 }) ∧ readsByte 1 s ∧
    (∀ k, k ≤ 600 → ∃ u, ticks k s = .next u ∧ u.data = s.data) ∧
    ∃ v : Byte, (∀ j, j < 8 → v.getLsbD j = owInAt (11 + 75 * j) s) ∧
      ticks 601 s = .next { restedAfter 601 s with data := v, sh := v }

/-- R210: RDROM sends 0x33 and then receives eight bytes into `BUF[0..7]`, bit `j` of byte `i` sampled `611 +
600 * i + 75 * j` ticks after acceptance and the byte written in the tick `600 * (i + 2)` after it; `BUF[8]`
and every register but `SH` are left as they were. -/
def Obligations.RdromCommandReadsEightBytes : Prop :=
  onlyWord 0x0700#16 .rdrom ∧ ∀ s : State, Inv s → accepts .rdrom s → noReset 5401 s →
    step s = .next (endTick { s with op := .rdrom, byteIdx := 0, bitIdx := 0, t := 0, sh := 0x33#8 }) ∧
    sendsByte 1 0x33#8 s ∧ (∀ i, i < 8 → readsByte (601 + 600 * i) s) ∧
    (∀ i : BufIdx, i.val < 8 →
      (∃ u, ticks (600 * (i.val + 2)) s = .next u ∧ memRead i u = memRead i s) ∧
      ∃ u, ticks (600 * (i.val + 2) + 1) s = .next u ∧
        ∀ j, j < 8 → (memRead i u).getLsbD j = owInAt (611 + 600 * i.val + 75 * j) s) ∧
    ∃ t, ticks 5401 s = .next t ∧
      (∀ i : BufIdx, i.val < 8 → ∀ j, j < 8 →
        (memRead i t).getLsbD j = owInAt (611 + 600 * i.val + 75 * j) s) ∧
      memRead 8 t = memRead 8 s ∧ t.sh = memRead 7 t ∧
      { t with buf := s.buf, sh := s.sh } = restedAfter 5401 s

/-- R211, R225: SKIPROM sends 0xCC and CONVT sends 0x44 and neither does anything else: CONVT "does not wait
for completion"; `SH` is left at 0x00 and every other register as it was. -/
def Obligations.SkipromAndConvtSendOneByte : Prop :=
  onlyWord 0x0800#16 .skiprom ∧ onlyWord 0x0900#16 .convt ∧ ∀ s : State, noReset 601 s →
    (accepts .skiprom s →
      step s = .next (endTick { s with op := .skiprom, byteIdx := 0, bitIdx := 0, t := 0, sh := 0xCC#8 }) ∧
      sendsByte 1 0xCC#8 s ∧ ticks 601 s = .next { restedAfter 601 s with sh := 0x00#8 }) ∧
    (accepts .convt s →
      step s = .next (endTick { s with op := .convt, byteIdx := 0, bitIdx := 0, t := 0, sh := 0x44#8 }) ∧
      sendsByte 1 0x44#8 s ∧ ticks 601 s = .next { restedAfter 601 s with sh := 0x00#8 })

/-- R226: RDSCR sends 0xBE and then receives nine bytes into `BUF[0..8]`, bit `j` of byte `i` sampled `611 +
600 * i + 75 * j` ticks after acceptance and the byte written in the tick `600 * (i + 2)` after it; every
register but `SH` is left as it was. -/
def Obligations.RdscrCommandReadsNineBytes : Prop :=
  onlyWord 0x0A00#16 .rdscr ∧ ∀ s : State, Inv s → accepts .rdscr s → noReset 6001 s →
    step s = .next (endTick { s with op := .rdscr, byteIdx := 0, bitIdx := 0, t := 0, sh := 0xBE#8 }) ∧
    sendsByte 1 0xBE#8 s ∧ (∀ i, i < 9 → readsByte (601 + 600 * i) s) ∧
    (∀ i : BufIdx,
      (∃ u, ticks (600 * (i.val + 2)) s = .next u ∧ memRead i u = memRead i s) ∧
      ∃ u, ticks (600 * (i.val + 2) + 1) s = .next u ∧
        ∀ j, j < 8 → (memRead i u).getLsbD j = owInAt (611 + 600 * i.val + 75 * j) s) ∧
    ∃ t, ticks 6001 s = .next t ∧
      (∀ (i : BufIdx) (j : Nat), j < 8 →
        (memRead i t).getLsbD j = owInAt (611 + 600 * i.val + 75 * j) s) ∧
      t.sh = memRead 8 t ∧ { t with buf := s.buf, sh := s.sh } = restedAfter 6001 s

/-- R227: WRSCR sends 0x4E, then `BUF[0]`, `BUF[1]`, `BUF[2]` as they were when the command was accepted, and
nothing more; `SH` is left at 0x00 and every other register as it was. -/
def Obligations.WrscrCommandSendsFourBytes : Prop :=
  onlyWord 0x0B00#16 .wrscr ∧ ∀ s : State, accepts .wrscr s → noReset 2401 s →
    step s = .next (endTick { s with op := .wrscr, byteIdx := 0, bitIdx := 0, t := 0, sh := 0x4E#8 }) ∧
    sendsByte 1 0x4E#8 s ∧ sendsByte 601 (memRead 0 s) s ∧ sendsByte 1201 (memRead 1 s) s ∧
    sendsByte 1801 (memRead 2 s) s ∧ ticks 2401 s = .next { restedAfter 2401 s with sh := 0x00#8 }

/-! ### The controller closed with the line -/

/-- From R68, R69: every run of the controller closed with the line is a run of the controller alone, with the
level of the line on `ow_in` in each tick. -/
def Obligations.ClosedRunIsAnOpenRun : Prop :=
  ∀ (pulls : List Bool) (s t : State), lineTicks pulls s = .next t →
    ∃ levels : List Bool, levels.length = pulls.length ∧
      ticks pulls.length { s with levels := levels ++ s.levels.drop pulls.length } = .next t ∧
      ∀ k, k < pulls.length → ∃ u,
        ticks k { s with levels := levels ++ s.levels.drop pulls.length } = .next u ∧
        owInAt 0 u = lineLevel (owOe u) (pulls.getD k false)

/-- The spec derives it: "With the closed bus", "`PRES = 1` exactly when `pull@(n+566) = 1`" (R146): on the
closed line RESET leaves `PRES = 1` exactly when a slave pulls in the tick 566 ticks after acceptance, and
changes nothing else. -/
def Obligations.PresenceOnTheClosedLine : Prop :=
  ∀ (s : State) (pulls : List Bool), accepts .reset s → noReset 1001 s → pulls.length = 1001 →
    lineTicks pulls s = .next { restedAfter 1001 s with pres := pulls.getD 566 false }

/-- The spec derives it (R198 (a), (b)): the direction output of WRBYTE records its byte, bit `j` being 1
exactly when the line is released at offset `75 * j + 30`; and when the slaves replay such a record in the
RDBYTE that follows, holding the line low through offset 10 of slot `j` exactly when bit `j` is 0, `DATA` is
the byte written. -/
def Obligations.WriteThenReadBackRoundTrip : Prop :=
  ∀ (s : State) (b : Byte) (record : Nat → Bool) (pulls : List Bool),
    accepts (.wrbyte b) s → noReset 1202 s → cmdAt 601 s = some 0x0600#16 → pulls.length = 1202 →
    (∀ j, j < 8 → ∃ u, ticks (1 + 75 * j + 30) s = .next u ∧ record j = !owOe u) →
    (∀ j r, j < 8 → r ≤ 10 → pulls.getD (602 + 75 * j + r) false = !record j) →
    (∀ j, j < 8 → record j = b.getLsbD j) ∧
    ∃ t, lineTicks pulls s = .next t ∧ t.op = .idle ∧ t.data = b
end

