-- ==== Sys2Proof/Laws/Codec.lean ====
section
/-! SUPPORT. The fields of a packed word, and a word as its fields (spec/30_encoding.md R90, R93). -/

namespace Sys2Proof

@[simp] theorem majorField_packWord (a b : Nibble) (c : Byte) : majorField (packWord a b c) = a := by
  apply BitVec.eq_of_toNat_eq
  simp only [majorField, packWord, BitVec.extractLsb'_toNat, BitVec.toNat_append, Nat.shiftRight_eq_div_pow]
  have ha := a.isLt
  have hb := b.isLt
  have hc := c.isLt
  rw [← Nat.shiftLeft_add_eq_or_of_lt hc, ← Nat.shiftLeft_add_eq_or_of_lt hb, Nat.shiftLeft_eq,
    Nat.shiftLeft_eq]
  omega

@[simp] theorem minorField_packWord (a b : Nibble) (c : Byte) : minorField (packWord a b c) = b := by
  apply BitVec.eq_of_toNat_eq
  simp only [minorField, packWord, BitVec.extractLsb'_toNat, BitVec.toNat_append, Nat.shiftRight_eq_div_pow]
  have ha := a.isLt
  have hb := b.isLt
  have hc := c.isLt
  rw [← Nat.shiftLeft_add_eq_or_of_lt hc, ← Nat.shiftLeft_add_eq_or_of_lt hb, Nat.shiftLeft_eq,
    Nat.shiftLeft_eq]
  omega

@[simp] theorem immField_packWord (a b : Nibble) (c : Byte) : immField (packWord a b c) = c := by
  apply BitVec.eq_of_toNat_eq
  simp only [immField, packWord, BitVec.extractLsb'_toNat, BitVec.toNat_append, Nat.shiftRight_eq_div_pow]
  have ha := a.isLt
  have hb := b.isLt
  have hc := c.isLt
  rw [← Nat.shiftLeft_add_eq_or_of_lt hc, ← Nat.shiftLeft_add_eq_or_of_lt hb, Nat.shiftLeft_eq,
    Nat.shiftLeft_eq]
  omega

/-- A word is its three fields. -/
theorem packWord_fields (w : Word) : packWord (majorField w) (minorField w) (immField w) = w := by
  apply BitVec.eq_of_toNat_eq
  have hc := (immField w).isLt
  have hb := (minorField w).isLt
  simp only [packWord, BitVec.toNat_append]
  rw [← Nat.shiftLeft_add_eq_or_of_lt hc, ← Nat.shiftLeft_add_eq_or_of_lt hb, Nat.shiftLeft_eq,
    Nat.shiftLeft_eq]
  simp only [majorField, minorField, immField, BitVec.extractLsb'_toNat, Nat.shiftRight_eq_div_pow]
  have := w.isLt
  omega

/-- `decode` reads the fields of a packed word. -/
@[simp] theorem decode_packWord (a b : Nibble) (c : Byte) :
    decode (packWord a b c) = decodeFields a b c := by simp [decode]

theorem decodeFields_formatS (b : Nibble) (c : Byte) : decodeFields 0x0 b c = decodeFormatS b c := rfl

/-- Setting the `imm` field of a word whose `imm` is 0x00. -/
theorem packWord_or_imm (a b : Nibble) (v : Byte) :
    packWord a b 0x00 ||| v.setWidth 16 = packWord a b v := by
  refine BitVec.eq_of_getLsbD_eq fun j hj => ?_
  simp only [packWord, BitVec.getLsbD_or, BitVec.getLsbD_append, BitVec.getLsbD_setWidth]
  by_cases h : j < 8
  · simp [h, hj]
  · have : v.getLsbD j = false := BitVec.getLsbD_of_ge v j (by omega)
    simp [h, this]

theorem majorField_toNat (w : Word) : (majorField w).toNat = w.toNat / 4096 := by
  simp only [majorField, BitVec.extractLsb'_toNat, Nat.shiftRight_eq_div_pow]
  have := w.isLt
  omega

theorem minorField_toNat (w : Word) : (minorField w).toNat = w.toNat / 256 % 16 := by
  simp only [minorField, BitVec.extractLsb'_toNat, Nat.shiftRight_eq_div_pow]

end Sys2Proof
end

