-- ==== Sys2Proof/Laws/State.lean ====
section
/-! SUPPORT. One lemma per field per named update of the state, each true by rfl and tagged simp, and what the
moving on of the input streams does to a look ahead. -/

namespace Sys2Proof.Machine

/-! ### `endTick` -/

@[simp] theorem endTick_pres (s : State) : (endTick s).pres = s.pres := rfl
@[simp] theorem endTick_rbit (s : State) : (endTick s).rbit = s.rbit := rfl
@[simp] theorem endTick_err (s : State) : (endTick s).err = s.err := rfl
@[simp] theorem endTick_data (s : State) : (endTick s).data = s.data := rfl
@[simp] theorem endTick_crc (s : State) : (endTick s).crc = s.crc := rfl
@[simp] theorem endTick_buf (s : State) : (endTick s).buf = s.buf := rfl
@[simp] theorem endTick_op (s : State) : (endTick s).op = s.op := rfl
@[simp] theorem endTick_byteIdx (s : State) : (endTick s).byteIdx = s.byteIdx := rfl
@[simp] theorem endTick_bitIdx (s : State) : (endTick s).bitIdx = s.bitIdx := rfl
@[simp] theorem endTick_t (s : State) : (endTick s).t = s.t := rfl
@[simp] theorem endTick_sh (s : State) : (endTick s).sh = s.sh := rfl
@[simp] theorem endTick_rsts (s : State) : (endTick s).rsts = s.rsts.tail := rfl
@[simp] theorem endTick_cmds (s : State) : (endTick s).cmds = s.cmds.tail := rfl
@[simp] theorem endTick_rdSels (s : State) : (endTick s).rdSels = s.rdSels.tail := rfl
@[simp] theorem endTick_levels (s : State) : (endTick s).levels = s.levels.tail := rfl
@[simp] theorem endTick_tick (s : State) : (endTick s).tick = s.tick + 1 := rfl

/-! ### `afterTicks` -/

@[simp] theorem afterTicks_pres (n : Nat) (s : State) : (afterTicks n s).pres = s.pres := rfl
@[simp] theorem afterTicks_rbit (n : Nat) (s : State) : (afterTicks n s).rbit = s.rbit := rfl
@[simp] theorem afterTicks_err (n : Nat) (s : State) : (afterTicks n s).err = s.err := rfl
@[simp] theorem afterTicks_data (n : Nat) (s : State) : (afterTicks n s).data = s.data := rfl
@[simp] theorem afterTicks_crc (n : Nat) (s : State) : (afterTicks n s).crc = s.crc := rfl
@[simp] theorem afterTicks_buf (n : Nat) (s : State) : (afterTicks n s).buf = s.buf := rfl
@[simp] theorem afterTicks_op (n : Nat) (s : State) : (afterTicks n s).op = s.op := rfl
@[simp] theorem afterTicks_byteIdx (n : Nat) (s : State) : (afterTicks n s).byteIdx = s.byteIdx := rfl
@[simp] theorem afterTicks_bitIdx (n : Nat) (s : State) : (afterTicks n s).bitIdx = s.bitIdx := rfl
@[simp] theorem afterTicks_t (n : Nat) (s : State) : (afterTicks n s).t = s.t := rfl
@[simp] theorem afterTicks_sh (n : Nat) (s : State) : (afterTicks n s).sh = s.sh := rfl
@[simp] theorem afterTicks_rsts (n : Nat) (s : State) : (afterTicks n s).rsts = s.rsts.drop n := rfl
@[simp] theorem afterTicks_cmds (n : Nat) (s : State) : (afterTicks n s).cmds = s.cmds.drop n := rfl
@[simp] theorem afterTicks_rdSels (n : Nat) (s : State) : (afterTicks n s).rdSels = s.rdSels.drop n := rfl
@[simp] theorem afterTicks_levels (n : Nat) (s : State) : (afterTicks n s).levels = s.levels.drop n := rfl
@[simp] theorem afterTicks_tick (n : Nat) (s : State) : (afterTicks n s).tick = s.tick + n := rfl

/-! ### `memWrite` -/

@[simp] theorem memWrite_pres (i : BufIdx) (v : Byte) (s : State) : (memWrite i v s).pres = s.pres := rfl
@[simp] theorem memWrite_rbit (i : BufIdx) (v : Byte) (s : State) : (memWrite i v s).rbit = s.rbit := rfl
@[simp] theorem memWrite_err (i : BufIdx) (v : Byte) (s : State) : (memWrite i v s).err = s.err := rfl
@[simp] theorem memWrite_data (i : BufIdx) (v : Byte) (s : State) : (memWrite i v s).data = s.data := rfl
@[simp] theorem memWrite_crc (i : BufIdx) (v : Byte) (s : State) : (memWrite i v s).crc = s.crc := rfl
@[simp] theorem memWrite_buf (i : BufIdx) (v : Byte) (s : State) : (memWrite i v s).buf = Memory.put i.val v s.buf := rfl
@[simp] theorem memWrite_op (i : BufIdx) (v : Byte) (s : State) : (memWrite i v s).op = s.op := rfl
@[simp] theorem memWrite_byteIdx (i : BufIdx) (v : Byte) (s : State) : (memWrite i v s).byteIdx = s.byteIdx := rfl
@[simp] theorem memWrite_bitIdx (i : BufIdx) (v : Byte) (s : State) : (memWrite i v s).bitIdx = s.bitIdx := rfl
@[simp] theorem memWrite_t (i : BufIdx) (v : Byte) (s : State) : (memWrite i v s).t = s.t := rfl
@[simp] theorem memWrite_sh (i : BufIdx) (v : Byte) (s : State) : (memWrite i v s).sh = s.sh := rfl
@[simp] theorem memWrite_rsts (i : BufIdx) (v : Byte) (s : State) : (memWrite i v s).rsts = s.rsts := rfl
@[simp] theorem memWrite_cmds (i : BufIdx) (v : Byte) (s : State) : (memWrite i v s).cmds = s.cmds := rfl
@[simp] theorem memWrite_rdSels (i : BufIdx) (v : Byte) (s : State) : (memWrite i v s).rdSels = s.rdSels := rfl
@[simp] theorem memWrite_levels (i : BufIdx) (v : Byte) (s : State) : (memWrite i v s).levels = s.levels := rfl
@[simp] theorem memWrite_tick (i : BufIdx) (v : Byte) (s : State) : (memWrite i v s).tick = s.tick := rfl

/-! ### `setCrc` -/

@[simp] theorem setCrc_pres (v : Byte) (s : State) : (setCrc v s).pres = s.pres := rfl
@[simp] theorem setCrc_rbit (v : Byte) (s : State) : (setCrc v s).rbit = s.rbit := rfl
@[simp] theorem setCrc_err (v : Byte) (s : State) : (setCrc v s).err = s.err := rfl
@[simp] theorem setCrc_data (v : Byte) (s : State) : (setCrc v s).data = s.data := rfl
@[simp] theorem setCrc_crc (v : Byte) (s : State) : (setCrc v s).crc = v := rfl
@[simp] theorem setCrc_buf (v : Byte) (s : State) : (setCrc v s).buf = s.buf := rfl
@[simp] theorem setCrc_op (v : Byte) (s : State) : (setCrc v s).op = s.op := rfl
@[simp] theorem setCrc_byteIdx (v : Byte) (s : State) : (setCrc v s).byteIdx = s.byteIdx := rfl
@[simp] theorem setCrc_bitIdx (v : Byte) (s : State) : (setCrc v s).bitIdx = s.bitIdx := rfl
@[simp] theorem setCrc_t (v : Byte) (s : State) : (setCrc v s).t = s.t := rfl
@[simp] theorem setCrc_sh (v : Byte) (s : State) : (setCrc v s).sh = s.sh := rfl
@[simp] theorem setCrc_rsts (v : Byte) (s : State) : (setCrc v s).rsts = s.rsts := rfl
@[simp] theorem setCrc_cmds (v : Byte) (s : State) : (setCrc v s).cmds = s.cmds := rfl
@[simp] theorem setCrc_rdSels (v : Byte) (s : State) : (setCrc v s).rdSels = s.rdSels := rfl
@[simp] theorem setCrc_levels (v : Byte) (s : State) : (setCrc v s).levels = s.levels := rfl
@[simp] theorem setCrc_tick (v : Byte) (s : State) : (setCrc v s).tick = s.tick := rfl

/-! ### `seqTo` -/

@[simp] theorem seqTo_pres (o : Op) (i j r : Nat) (s : State) : (seqTo o i j r s).pres = s.pres := rfl
@[simp] theorem seqTo_rbit (o : Op) (i j r : Nat) (s : State) : (seqTo o i j r s).rbit = s.rbit := rfl
@[simp] theorem seqTo_err (o : Op) (i j r : Nat) (s : State) : (seqTo o i j r s).err = s.err := rfl
@[simp] theorem seqTo_data (o : Op) (i j r : Nat) (s : State) : (seqTo o i j r s).data = s.data := rfl
@[simp] theorem seqTo_crc (o : Op) (i j r : Nat) (s : State) : (seqTo o i j r s).crc = s.crc := rfl
@[simp] theorem seqTo_buf (o : Op) (i j r : Nat) (s : State) : (seqTo o i j r s).buf = s.buf := rfl
@[simp] theorem seqTo_op (o : Op) (i j r : Nat) (s : State) : (seqTo o i j r s).op = o := rfl
@[simp] theorem seqTo_byteIdx (o : Op) (i j r : Nat) (s : State) : (seqTo o i j r s).byteIdx = i := rfl
@[simp] theorem seqTo_bitIdx (o : Op) (i j r : Nat) (s : State) : (seqTo o i j r s).bitIdx = j := rfl
@[simp] theorem seqTo_t (o : Op) (i j r : Nat) (s : State) : (seqTo o i j r s).t = r := rfl
@[simp] theorem seqTo_sh (o : Op) (i j r : Nat) (s : State) : (seqTo o i j r s).sh = s.sh := rfl
@[simp] theorem seqTo_rsts (o : Op) (i j r : Nat) (s : State) : (seqTo o i j r s).rsts = s.rsts := rfl
@[simp] theorem seqTo_cmds (o : Op) (i j r : Nat) (s : State) : (seqTo o i j r s).cmds = s.cmds := rfl
@[simp] theorem seqTo_rdSels (o : Op) (i j r : Nat) (s : State) : (seqTo o i j r s).rdSels = s.rdSels := rfl
@[simp] theorem seqTo_levels (o : Op) (i j r : Nat) (s : State) : (seqTo o i j r s).levels = s.levels := rfl
@[simp] theorem seqTo_tick (o : Op) (i j r : Nat) (s : State) : (seqTo o i j r s).tick = s.tick := rfl

/-! ### `loadSh` -/

@[simp] theorem loadSh_pres (v : Option Byte) (s : State) : (loadSh v s).pres = s.pres := rfl
@[simp] theorem loadSh_rbit (v : Option Byte) (s : State) : (loadSh v s).rbit = s.rbit := rfl
@[simp] theorem loadSh_err (v : Option Byte) (s : State) : (loadSh v s).err = s.err := rfl
@[simp] theorem loadSh_data (v : Option Byte) (s : State) : (loadSh v s).data = s.data := rfl
@[simp] theorem loadSh_crc (v : Option Byte) (s : State) : (loadSh v s).crc = s.crc := rfl
@[simp] theorem loadSh_buf (v : Option Byte) (s : State) : (loadSh v s).buf = s.buf := rfl
@[simp] theorem loadSh_op (v : Option Byte) (s : State) : (loadSh v s).op = s.op := rfl
@[simp] theorem loadSh_byteIdx (v : Option Byte) (s : State) : (loadSh v s).byteIdx = s.byteIdx := rfl
@[simp] theorem loadSh_bitIdx (v : Option Byte) (s : State) : (loadSh v s).bitIdx = s.bitIdx := rfl
@[simp] theorem loadSh_t (v : Option Byte) (s : State) : (loadSh v s).t = s.t := rfl
@[simp] theorem loadSh_sh (v : Option Byte) (s : State) : (loadSh v s).sh = v.getD s.sh := rfl
@[simp] theorem loadSh_rsts (v : Option Byte) (s : State) : (loadSh v s).rsts = s.rsts := rfl
@[simp] theorem loadSh_cmds (v : Option Byte) (s : State) : (loadSh v s).cmds = s.cmds := rfl
@[simp] theorem loadSh_rdSels (v : Option Byte) (s : State) : (loadSh v s).rdSels = s.rdSels := rfl
@[simp] theorem loadSh_levels (v : Option Byte) (s : State) : (loadSh v s).levels = s.levels := rfl
@[simp] theorem loadSh_tick (v : Option Byte) (s : State) : (loadSh v s).tick = s.tick := rfl

/-! ### `resetRegs` -/

@[simp] theorem resetRegs_pres (s : State) : (resetRegs s).pres = false := rfl
@[simp] theorem resetRegs_rbit (s : State) : (resetRegs s).rbit = false := rfl
@[simp] theorem resetRegs_err (s : State) : (resetRegs s).err = false := rfl
@[simp] theorem resetRegs_data (s : State) : (resetRegs s).data = 0x00#8 := rfl
@[simp] theorem resetRegs_crc (s : State) : (resetRegs s).crc = 0x00#8 := rfl
@[simp] theorem resetRegs_buf (s : State) : (resetRegs s).buf = [] := rfl
@[simp] theorem resetRegs_op (s : State) : (resetRegs s).op = .idle := rfl
@[simp] theorem resetRegs_byteIdx (s : State) : (resetRegs s).byteIdx = 0 := rfl
@[simp] theorem resetRegs_bitIdx (s : State) : (resetRegs s).bitIdx = 0 := rfl
@[simp] theorem resetRegs_t (s : State) : (resetRegs s).t = 0 := rfl
@[simp] theorem resetRegs_sh (s : State) : (resetRegs s).sh = 0x00#8 := rfl
@[simp] theorem resetRegs_rsts (s : State) : (resetRegs s).rsts = s.rsts := rfl
@[simp] theorem resetRegs_cmds (s : State) : (resetRegs s).cmds = s.cmds := rfl
@[simp] theorem resetRegs_rdSels (s : State) : (resetRegs s).rdSels = s.rdSels := rfl
@[simp] theorem resetRegs_levels (s : State) : (resetRegs s).levels = s.levels := rfl
@[simp] theorem resetRegs_tick (s : State) : (resetRegs s).tick = s.tick := rfl

/-! ### Looking ahead -/

@[simp] theorem afterTicks_zero (s : State) : afterTicks 0 s = s := rfl

theorem endTick_eq_afterTicks (s : State) : endTick s = afterTicks 1 s := by
  simp [endTick, afterTicks]

@[simp] theorem afterTicks_afterTicks (m n : Nat) (s : State) :
    afterTicks m (afterTicks n s) = afterTicks (n + m) s := by
  simp [afterTicks, Nat.add_assoc]

theorem endTick_afterTicks (n : Nat) (s : State) : endTick (afterTicks n s) = afterTicks (n + 1) s := by
  rw [endTick_eq_afterTicks, afterTicks_afterTicks]

theorem rstAt_of_eq_drop {s u : State} {n : Nat} (h : u.rsts = s.rsts.drop n) (k : Nat) :
    rstAt k u = rstAt (n + k) s := by
  simp [rstAt, h, List.getD_eq_getElem?_getD]

theorem cmdAt_of_eq_drop {s u : State} {n : Nat} (h : u.cmds = s.cmds.drop n) (k : Nat) :
    cmdAt k u = cmdAt (n + k) s := by
  simp [cmdAt, h, List.getD_eq_getElem?_getD]

theorem owInAt_of_eq_drop {s u : State} {n : Nat} (h : u.levels = s.levels.drop n)
    (ht : u.tick = s.tick + n) (k : Nat) : owInAt k u = owInAt (n + k) s := by
  simp [owInAt, h, ht, List.getD_eq_getElem?_getD, Nat.add_assoc]

@[simp] theorem rstAt_afterTicks (k n : Nat) (s : State) : rstAt k (afterTicks n s) = rstAt (n + k) s :=
  rstAt_of_eq_drop (by simp) k

@[simp] theorem cmdAt_afterTicks (k n : Nat) (s : State) : cmdAt k (afterTicks n s) = cmdAt (n + k) s :=
  cmdAt_of_eq_drop (by simp) k

@[simp] theorem owInAt_afterTicks (k n : Nat) (s : State) : owInAt k (afterTicks n s) = owInAt (n + k) s :=
  owInAt_of_eq_drop (by simp) (by simp) k

theorem noReset_mono {m n : Nat} {s : State} (h : noReset n s) (hm : m ≤ n) : noReset m s :=
  fun k hk => h k (Nat.lt_of_lt_of_le hk hm)

theorem noReset_of_eq_drop {s u : State} {m n : Nat} (h : noReset (n + m) s) (hu : u.rsts = s.rsts.drop n) :
    noReset m u := fun k hk => by
  rw [rstAt_of_eq_drop hu]; exact h _ (by omega)

theorem noReset_of_no_list {s : State} (n : Nat) (h : s.rsts = []) : noReset n s :=
  fun k _ => by simp [rstAt, h]

end Sys2Proof.Machine
end

