-- ==== Sys2Proof/Laws/Memory.lean ====
section
/-! SUPPORT. The buffer: a read after a write, the canonical form kept by every write, and equal contents are
equal data (spec/20_memory.md R60, R62). -/

namespace Sys2Proof.Machine

theorem Memory.wf_nil : Memory.wf [] := ⟨List.Pairwise.nil, by simp⟩

theorem Memory.wf_tail {c : Host.Cell} {m : Memory} (h : Memory.wf (c :: m)) : Memory.wf m :=
  ⟨(List.pairwise_cons.mp h.1).2, fun d hd => h.2 d (List.mem_cons_of_mem c hd)⟩

theorem Memory.head_lt {c : Host.Cell} {m : Memory} (h : Memory.wf (c :: m)) : ∀ d ∈ m, c.1 < d.1 :=
  (List.pairwise_cons.mp h.1).1

/-- An address below every listed one reads as 0x00. -/
theorem Memory.get_of_lt {a : Nat} {m : Memory} (h : ∀ d ∈ m, a < d.1) : Memory.get a m = 0x00#8 := by
  induction m with
  | nil => rfl
  | cons c m ih =>
    have hc := h c (by simp)
    simp only [Memory.get]
    rw [if_neg (by omega), ih fun d hd => h d (by simp [hd])]

theorem Memory.get_put_same {m : Memory} (a : Nat) (v : Byte) (h : Memory.wf m) :
    Memory.get a (Memory.put a v m) = v := by
  induction m with
  | nil => by_cases hv : v = 0x00#8 <;> simp [Memory.put, Memory.get, hv]
  | cons c m ih =>
    obtain ⟨b, w⟩ := c
    have hlt := Memory.head_lt h
    simp only [Memory.put]
    split
    · next hab =>
      split
      · next hv =>
        rw [hv]
        refine Memory.get_of_lt fun d hd => ?_
        rcases List.mem_cons.mp hd with rfl | hd
        · exact hab
        · exact Nat.lt_trans hab (hlt d hd)
      · simp [Memory.get]
    · split
      · next hab =>
        split
        · next hv => rw [hv]; exact Memory.get_of_lt fun d hd => by rw [hab]; exact hlt d hd
        · simp [Memory.get]
      · next hab =>
        simp only [Memory.get]
        rw [if_neg (by omega), ih (Memory.wf_tail h)]

theorem Memory.get_put_other {m : Memory} {a b : Nat} (v : Byte) (hab : b ≠ a) :
    Memory.get b (Memory.put a v m) = Memory.get b m := by
  induction m with
  | nil => by_cases hv : v = 0x00#8 <;> simp [Memory.put, Memory.get, hv, Ne.symm hab]
  | cons c m ih =>
    obtain ⟨d, w⟩ := c
    simp only [Memory.put]
    split
    · split
      · rfl
      · simp [Memory.get, Ne.symm hab]
    · split
      · next had =>
        subst had
        split <;> simp [Memory.get, Ne.symm hab]
      · simp only [Memory.get, ih]

theorem Memory.put_mem {m : Memory} {a : Nat} {v : Byte} {c : Host.Cell} (h : c ∈ Memory.put a v m) :
    c ∈ m ∨ (c = (a, v) ∧ v ≠ 0x00#8) := by
  induction m with
  | nil =>
    simp only [Memory.put] at h
    split at h
    · simp at h
    · next hv => exact .inr ⟨by simpa using h, hv⟩
  | cons d m ih =>
    obtain ⟨b, w⟩ := d
    simp only [Memory.put] at h
    split at h
    · split at h
      · exact .inl h
      · next hv =>
        rcases List.mem_cons.mp h with rfl | h
        · exact .inr ⟨rfl, hv⟩
        · exact .inl h
    · split at h
      · split at h
        · exact .inl (List.mem_cons_of_mem _ h)
        · next hv =>
          rcases List.mem_cons.mp h with rfl | h
          · exact .inr ⟨rfl, hv⟩
          · exact .inl (List.mem_cons_of_mem _ h)
      · rcases List.mem_cons.mp h with rfl | h
        · exact .inl (by simp)
        · rcases ih h with h | h
          · exact .inl (List.mem_cons_of_mem _ h)
          · exact .inr h

/-- Every write keeps the canonical form. -/
theorem Memory.put_wf {m : Memory} {a : Nat} (v : Byte) (ha : a < bufLen) (h : Memory.wf m) :
    Memory.wf (Memory.put a v m) := by
  refine ⟨?_, fun c hc => ?_⟩
  · induction m with
    | nil => by_cases hv : v = 0x00#8 <;> simp [Memory.put, hv]
    | cons c m ih =>
      obtain ⟨b, w⟩ := c
      have hlt := Memory.head_lt h
      have htl := (List.pairwise_cons.mp h.1).2
      simp only [Memory.put]
      split
      · next hab =>
        split
        · exact h.1
        · refine List.pairwise_cons.mpr ⟨fun d hd => ?_, h.1⟩
          rcases List.mem_cons.mp hd with rfl | hd
          · exact hab
          · exact Nat.lt_trans hab (hlt d hd)
      · split
        · next hab =>
          split
          · exact htl
          · exact List.pairwise_cons.mpr ⟨fun d hd => by rw [hab]; exact hlt d hd, htl⟩
        · refine List.pairwise_cons.mpr ⟨fun d hd => ?_, ih (Memory.wf_tail h)⟩
          rcases Memory.put_mem hd with hd | ⟨rfl, _⟩
          · exact hlt d hd
          · show b < a
            omega
  · rcases Memory.put_mem hc with hc | ⟨rfl, hv⟩
    · exact h.2 c hc
    · exact ⟨ha, hv⟩

/-- Two buffers in canonical form that read alike are the same data. -/
theorem Memory.eq_of_get_eq {m m' : Memory} (h : Memory.wf m) (h' : Memory.wf m')
    (hg : ∀ a, Memory.get a m = Memory.get a m') : m = m' := by
  induction m generalizing m' with
  | nil =>
    cases m' with
    | nil => rfl
    | cons d m' =>
      have := hg d.1
      simp only [Memory.get] at this
      exact absurd this.symm (h'.2 d (by simp)).2
  | cons c m ih =>
    cases m' with
    | nil =>
      have := hg c.1
      simp only [Memory.get] at this
      exact absurd this (h.2 c (by simp)).2
    | cons d m' =>
      obtain ⟨b, v⟩ := c
      obtain ⟨e, w⟩ := d
      have hb := Memory.head_lt h
      have he := Memory.head_lt h'
      have hbe : b = e := by
        rcases Nat.lt_trichotomy b e with hlt | heq | hlt
        · have := hg b
          rw [Memory.get_of_lt (m := (e, w) :: m')] at this
          · exact absurd (by simpa [Memory.get] using this) (h.2 (b, v) (by simp)).2
          · intro d hd
            rcases List.mem_cons.mp hd with rfl | hd
            · exact hlt
            · exact Nat.lt_trans hlt (he d hd)
        · exact heq
        · have := hg e
          rw [Memory.get_of_lt (m := (b, v) :: m)] at this
          · exact absurd (by simpa [Memory.get] using this.symm) (h'.2 (e, w) (by simp)).2
          · intro d hd
            rcases List.mem_cons.mp hd with rfl | hd
            · exact hlt
            · exact Nat.lt_trans hlt (hb d hd)
      subst hbe
      have hvw : v = w := by simpa [Memory.get] using hg b
      subst hvw
      congr 1
      refine ih (Memory.wf_tail h) (Memory.wf_tail h') fun a => ?_
      by_cases hab : b = a
      · subst hab
        rw [Memory.get_of_lt hb, Memory.get_of_lt he]
      · simpa [Memory.get, hab] using hg a

theorem memRead_memWrite_same {s : State} (i : BufIdx) (v : Byte) (h : Memory.wf s.buf) :
    memRead i (memWrite i v s) = v := Memory.get_put_same i.val v h

theorem memRead_memWrite_other {s : State} {i j : BufIdx} (v : Byte) (hij : j ≠ i) :
    memRead j (memWrite i v s) = memRead j s :=
  Memory.get_put_other v fun h => hij (Fin.ext h)

theorem memWrite_wf {s : State} (i : BufIdx) (v : Byte) (h : Memory.wf s.buf) :
    Memory.wf (memWrite i v s).buf := Memory.put_wf v i.isLt h

/-- A read depends on the buffer alone. -/
theorem memRead_congr {s u : State} (h : u.buf = s.buf) (i : BufIdx) : memRead i u = memRead i s := by
  rw [memRead, memRead, h]

end Sys2Proof.Machine
end

