-- ==== Sys2Proof/Laws/Engine.lean ====
section
/-! SUPPORT. One tick: what a step is in each of its cases, what a busy tick can do, and the engine on whole
primitives (spec/10_state.md R21, R44). -/

namespace Sys2Proof.Machine

/-! ### The cases of a step -/

theorem step_of_rst {s : State} (h : rstAt 0 s = true) : step s = .next (endTick (resetRegs s)) := by
  simp [step, stepRegs, h, mapNext]

theorem step_of_idle {s : State} (hr : rstAt 0 s = false) (hi : s.op = .idle) (hc : offered s = none) :
    step s = .next (endTick s) := by
  simp [step, stepRegs, hr, hi, hc, mapNext]

theorem step_of_accept {s : State} {i : Instr} (h : accepts i s) : step s = mapNext endTick (exec i s) := by
  obtain ⟨hi, hr, hc⟩ := h
  simp [step, stepRegs, hr, hi, hc]

theorem step_of_illegal {s : State} {c : IllegalCause} (hr : rstAt 0 s = false) (hi : s.op = .idle)
    (hc : offered s = some (.illegal c)) : step s = .next (endTick { s with err := true }) := by
  simp [step, stepRegs, hr, hi, hc, mapNext, raiseCmdError]

theorem step_of_busy {s : State} {k : Prim} (hr : rstAt 0 s = false) (hb : s.op ≠ .idle)
    (hk : kind? s = some k) : step s = .next (endTick (moveOn k (sense k s))) := by
  simp [step, stepRegs, hr, hb, advance, hk, mapNext]

theorem step_of_no_item {s : State} (hr : rstAt 0 s = false) (hb : s.op ≠ .idle) (hk : kind? s = none) :
    step s = .fault .noPlanItem := by
  simp [step, stepRegs, hr, hb, advance, hk, mapNext]

/-- `exec` always answers a next state. -/
theorem exec_next (i : Instr) (s : State) : ∃ t, exec i s = .next t := by
  cases i with
  | stbuf idx imm => simp only [exec, execStbuf]; split <;> exact ⟨_, rfl⟩
  | ldbuf idx => simp only [exec, execLdbuf]; split <;> exact ⟨_, rfl⟩
  | crcbuf len => simp only [exec, execCrcbuf]; split <;> exact ⟨_, rfl⟩
  | _ => exact ⟨_, rfl⟩

/-- Everything a tick can do: if it answers a next state, one of these is what it did. -/
theorem step_cases {s t : State} (h : step s = .next t) :
    (rstAt 0 s = true ∧ t = endTick (resetRegs s)) ∨
    (rstAt 0 s = false ∧ s.op = .idle ∧ offered s = none ∧ t = endTick s) ∨
    (rstAt 0 s = false ∧ s.op = .idle ∧ (∃ c, offered s = some (.illegal c)) ∧
      t = endTick { s with err := true }) ∨
    (∃ i u, accepts i s ∧ exec i s = .next u ∧ t = endTick u) ∨
    (rstAt 0 s = false ∧ s.op ≠ .idle ∧ ∃ k, kind? s = some k ∧ t = endTick (moveOn k (sense k s))) := by
  by_cases hr : rstAt 0 s = true
  · rw [step_of_rst hr] at h
    exact .inl ⟨hr, by simpa using h.symm⟩
  have hr' : rstAt 0 s = false := by simpa using hr
  by_cases hi : s.op = .idle
  · cases hc : offered s with
    | none =>
      rw [step_of_idle hr' hi hc] at h
      exact .inr (.inl ⟨hr', hi, rfl, by simpa using h.symm⟩)
    | some d =>
      cases d with
      | illegal c =>
        rw [step_of_illegal hr' hi hc] at h
        exact .inr (.inr (.inl ⟨hr', hi, ⟨c, rfl⟩, by simpa using h.symm⟩))
      | command i =>
        rw [step_of_accept ⟨hi, hr', hc⟩] at h
        obtain ⟨u, hu⟩ := exec_next i s
        rw [hu] at h
        exact .inr (.inr (.inr (.inl ⟨i, u, ⟨hi, hr', hc⟩, hu, by simpa [mapNext] using h.symm⟩)))
  · cases hk : kind? s with
    | none => rw [step_of_no_item hr' hi hk] at h; cases h
    | some k =>
      rw [step_of_busy hr' hi hk] at h
      exact .inr (.inr (.inr (.inr ⟨hr', hi, k, rfl, by simpa using h.symm⟩)))

/-! ### Several ticks -/

@[simp] theorem ticks_zero (s : State) : ticks 0 s = .next s := rfl

theorem ticks_succ_of_step {s u : State} (n : Nat) (h : step s = .next u) : ticks (n + 1) s = ticks n u := by
  simp [ticks, h]

theorem ticks_one {s u : State} (h : step s = .next u) : ticks 1 s = .next u := ticks_succ_of_step 0 h

theorem ticks_add {s u : State} {m : Nat} (n : Nat) (h : ticks m s = .next u) :
    ticks (m + n) s = ticks n u := by
  induction m generalizing s with
  | zero => cases h; simp
  | succ m ih =>
    cases hs : step s with
    | next v => rw [ticks_succ_of_step m hs] at h; rw [Nat.add_right_comm, ticks_succ_of_step _ hs, ih h]
    | fault r => simp [ticks, hs] at h
    | refused r => simp [ticks, hs] at h

/-! ### A busy tick -/

/-- The offset at which a primitive samples the line (spec/10_state.md R44). -/
def sampleOffset? : Prim → Option Nat
  | .reset => some 565
  | .rd => some 10
  | .w1 => none
  | .w0 => none

theorem sense_of_not_sample {k : Prim} {s : State} (h : sampleOffset? k ≠ some s.t) : sense k s = s := by
  cases k with
  | reset => exact if_neg fun ht => h (by rw [sampleOffset?, ht]; rfl)
  | rd => exact if_neg fun ht => h (by rw [sampleOffset?, ht]; rfl)
  | w1 => rfl
  | w0 => rfl

/-- The registers of `s` in the middle of a primitive: only `T` has moved. -/
def atOffset (r n : Nat) (s : State) : State := { afterTicks n s with t := r }

theorem kind?_congr {s u : State} (ho : u.op = s.op) (hb : u.byteIdx = s.byteIdx) (hs : u.sh = s.sh) :
    kind? u = kind? s := by
  simp [kind?, itemNow?, ho, hb, hs]

theorem kind?_atOffset (r n : Nat) (s : State) : kind? (atOffset r n s) = kind? s :=
  kind?_congr rfl rfl rfl

/-- A busy tick that neither samples nor ends its primitive only counts. -/
theorem step_of_count {s : State} {k : Prim} (hr : rstAt 0 s = false) (hb : s.op ≠ .idle)
    (hk : kind? s = some k) (hs : sampleOffset? k ≠ some s.t) (ht : s.t + 1 < primLen k) :
    step s = .next (atOffset (s.t + 1) 1 s) := by
  rw [step_of_busy hr hb hk, sense_of_not_sample hs, moveOn, if_pos (by omega), endTick_eq_afterTicks]
  rfl

/-- Counting ticks: from offset `T`, `n` ticks that meet no sample and stay inside the primitive. -/
theorem ticks_count {s : State} {k : Prim} (n : Nat) (hb : s.op ≠ .idle) (hk : kind? s = some k)
    (hr : noReset n s) (hs : ∀ q, s.t ≤ q → q < s.t + n → sampleOffset? k ≠ some q)
    (ht : s.t + n < primLen k) : ticks n s = .next (atOffset (s.t + n) n s) := by
  induction n with
  | zero => rfl
  | succ n ih =>
    have h := ih (noReset_mono hr (by omega)) (fun q h1 h2 => hs q h1 (by omega)) (by omega)
    have hr0 : rstAt 0 (atOffset (s.t + n) n s) = false := by
      rw [rstAt_of_eq_drop (s := s) (n := n) rfl]; exact hr n (by omega)
    have hstep : step (atOffset (s.t + n) n s) = .next (atOffset (s.t + n + 1) 1 (atOffset (s.t + n) n s)) :=
      step_of_count (k := k) hr0 hb ((kind?_atOffset _ _ _).trans hk) (hs (s.t + n) (by omega) (by omega))
        (by show s.t + n + 1 < primLen k; omega)
    rw [ticks_add 1 h, ticks_one hstep]
    simp [atOffset, afterTicks, Nat.add_assoc]

/-- The last tick of a primitive. -/
theorem step_of_last {s : State} {k : Prim} (hr : rstAt 0 s = false) (hb : s.op ≠ .idle)
    (hk : kind? s = some k) (hs : sampleOffset? k ≠ some s.t) (ht : s.t + 1 = primLen k) :
    step s = .next (endTick (endOfPrimitive s)) := by
  rw [step_of_busy hr hb hk, sense_of_not_sample hs, moveOn, if_neg (by omega)]

end Sys2Proof.Machine
end

