-- ==== Sys2Proof/Laws/Run.lean ====
section
/-! SUPPORT. The engine on whole slots and whole bytes: what 75 ticks of a slot and 600 ticks of a byte do, and
what the line carries meanwhile (spec/43_byte_transfer.md R190 to R195). -/

namespace Sys2Proof.Machine

/-! ### The shifter -/

@[simp] theorem shiftIn_top (sh : Byte) (level : Bool) : (shiftIn sh level).getLsbD 7 = level := by
  cases level <;> simp [shiftIn]

theorem shiftIn_low (sh : Byte) (level : Bool) {j : Nat} (hj : j < 7) :
    (shiftIn sh level).getLsbD j = sh.getLsbD (j + 1) := by
  rw [shiftIn, BitVec.getLsbD_or, BitVec.getLsbD_shiftLeft, BitVec.getLsbD_ushiftRight, Nat.add_comm]
  simp [hj]

/-- The shifter once the sample tick of a slot is past. -/
def slotSample (item : Item) (sh : Byte) (level : Bool) : Byte :=
  if isWriteItem item then sh else shiftIn sh level

/-- The shifter once a slot is over. -/
def slotOut (item : Item) (sh : Byte) (level : Bool) : Byte :=
  if isWriteItem item then sh >>> 1 else shiftIn sh level

/-- The shifter after `j` slots of a byte that starts in this tick. -/
def shAfter (item : Item) (s : State) : Nat → Byte
  | 0 => s.sh
  | j + 1 => slotOut item (shAfter item s j) (owInAt (75 * j + 10) s)

theorem shAfter_write {item : Item} (h : isWriteItem item = true) (s : State) (j : Nat) :
    shAfter item s j = s.sh >>> j := by
  induction j with
  | zero => simp [shAfter]
  | succ j ih => rw [shAfter, slotOut, if_pos h, ih, ← BitVec.shiftRight_add]

theorem shAfter_write_all {item : Item} (h : isWriteItem item = true) (s : State) :
    shAfter item s 8 = 0x00#8 := by
  rw [shAfter_write h]
  exact BitVec.ushiftRight_eq_zero (by omega)

/-- After `n` slots of a read byte the top `n` bits are the samples, in order. -/
theorem shAfter_read {item : Item} (h : isWriteItem item = false) (s : State) (n : Nat) (hn : n ≤ 8) (j : Nat)
    (hj : j < n) : (shAfter item s n).getLsbD (8 - n + j) = owInAt (75 * j + 10) s := by
  induction n with
  | zero => omega
  | succ n ih =>
    rw [shAfter, slotOut, if_neg (by simp [h])]
    by_cases hjn : j = n
    · subst hjn
      rw [show 8 - (j + 1) + j = 7 by omega, shiftIn_top]
    · rw [shiftIn_low _ _ (by omega), show 8 - (n + 1) + j + 1 = 8 - n + j by omega]
      exact ih (by omega) (by omega)

/-- "After the eight slots of a byte, `SH[j]` is the bit sampled in slot `j`, for every `j`, whatever `SH` held
before the byte" (spec/43_byte_transfer.md R194). -/
theorem shAfter_read_all {item : Item} (h : isWriteItem item = false) (s : State) (j : Nat) (hj : j < 8) :
    (shAfter item s 8).getLsbD j = owInAt (75 * j + 10) s := by
  simpa using shAfter_read h s 8 (by omega) j hj

/-! ### A position inside a byte plan -/

theorem primitiveOf?_of_item {s : State} {item : Item} (h : itemNow? s = some item) :
    primitiveOf? s.op = none := by
  cases ho : s.op <;> simp_all [itemNow?, plan, primitiveOf?]

theorem op_ne_idle_of_item {s : State} {item : Item} (h : itemNow? s = some item) : s.op ≠ .idle := by
  intro ho; simp [itemNow?, plan, ho] at h

theorem op_ne_rdbit_of_item {s : State} {item : Item} (h : itemNow? s = some item) : s.op ≠ .rdbit := by
  intro ho; simp [itemNow?, plan, ho] at h

theorem kind?_of_item {s : State} {item : Item} (h : itemNow? s = some item) :
    kind? s = some (slotPrim item s.sh) := by
  simp [kind?, primitiveOf?_of_item h, h]

theorem primLen_slotPrim (item : Item) (sh : Byte) : primLen (slotPrim item sh) = 75 := by
  unfold slotPrim
  split
  · split <;> rfl
  · rfl

theorem sampleOffset?_slotPrim_write {item : Item} (h : isWriteItem item = true) (sh : Byte) :
    sampleOffset? (slotPrim item sh) = none := by
  unfold slotPrim
  rw [if_pos h]
  split <;> rfl

theorem slotPrim_read {item : Item} (h : isWriteItem item = false) (sh : Byte) : slotPrim item sh = .rd := by
  simp [slotPrim, h]

/-- The sample tick of a read slot inside a byte. -/
theorem step_of_read_sample {s : State} {item : Item} (hi : itemNow? s = some item)
    (hw : isWriteItem item = false) (hr : rstAt 0 s = false) (ht : s.t = 10) :
    step s = .next { atOffset 11 1 s with sh := shiftIn s.sh (owInAt 0 s) } := by
  have hk : kind? s = some .rd := by rw [kind?_of_item hi, slotPrim_read hw]
  rw [step_of_busy hr (op_ne_idle_of_item hi) hk]
  simp [sense, moveOn, ht, tRdl, tRds, op_ne_rdbit_of_item hi, primLen, tSlot, endTick, atOffset, afterTicks]

/-- The first `r` ticks of a slot of a byte. -/
theorem ticks_in_slot {s : State} {item : Item} (r : Nat) (hi : itemNow? s = some item) (ht : s.t = 0)
    (hr : noReset r s) (hlt : r < 75) :
    ticks r s = .next { atOffset r r s with
      sh := if r ≤ 10 then s.sh else slotSample item s.sh (owInAt 10 s) } := by
  have hb := op_ne_idle_of_item hi
  have hk := kind?_of_item hi
  have hlen := primLen_slotPrim item s.sh
  cases hw : isWriteItem item with
  | true =>
    have := ticks_count (s := s) r hb hk hr (by simp [sampleOffset?_slotPrim_write hw]) (by omega)
    rw [this, ht]
    simp only [slotSample, hw, if_true, ite_self, Nat.zero_add]
    rfl
  | false =>
    rw [slotPrim_read hw] at hk
    by_cases h10 : r ≤ 10
    · have := ticks_count (s := s) r hb hk hr
        (fun q _ h2 => by simp only [sampleOffset?, ne_eq, Option.some.injEq]; omega)
        (by show s.t + r < 75; omega)
      rw [this, ht, if_pos h10, Nat.zero_add]
      rfl
    · obtain ⟨n, rfl⟩ : ∃ n, r = 10 + (1 + n) := ⟨r - 11, by omega⟩
      have h1 := ticks_count (s := s) 10 hb hk (noReset_mono hr (by omega))
        (fun q _ h2 => by simp only [sampleOffset?, ne_eq, Option.some.injEq]; omega)
        (by show s.t + 10 < 75; omega)
      rw [ht] at h1
      let u := atOffset (0 + 10) 10 s
      have hu : step u = .next { atOffset 11 1 u with sh := shiftIn u.sh (owInAt 0 u) } :=
        step_of_read_sample hi hw
          (by rw [rstAt_of_eq_drop (s := s) (u := u) (n := 10) rfl]; exact hr 10 (by omega)) rfl
      let v : State := { atOffset 11 1 u with sh := shiftIn u.sh (owInAt 0 u) }
      have hv : itemNow? v = some item := hi
      have h3 := ticks_count (s := v) n (op_ne_idle_of_item hv)
        ((kind?_of_item hv).trans (by rw [slotPrim_read hw]))
        (noReset_of_eq_drop (s := s) (n := 11) (by rw [show 11 + n = 10 + (1 + n) by omega]; exact hr)
          (by simp [v, u, atOffset]))
        (fun q h1 _ => by
          have : v.t = 11 := rfl
          simp only [sampleOffset?, ne_eq, Option.some.injEq]; omega)
        (by show 11 + n < 75; omega)
      rw [ticks_add _ h1, ticks_add n (ticks_one hu), h3]
      have ho : owInAt 0 u = owInAt 10 s := owInAt_of_eq_drop (s := s) (u := u) (n := 10) rfl rfl 0
      rw [if_neg (by omega)]
      simp only [slotSample, hw, Bool.false_eq_true, if_false]
      simp only [atOffset, afterTicks, v, u] at ho ⊢
      simp [ho, Nat.add_assoc]
      omega

/-! ### A whole slot -/

theorem itemValue?_congr {s u : State} (h : u.buf = s.buf) (imm : Option Byte) (item : Item) :
    itemValue? imm u item = itemValue? imm s item := by
  cases item <;> simp [itemValue?, memRead, h]

/-- The end of a slot does not touch the input streams, so it may be taken before or after the end of the
tick. -/
theorem endTick_endOfSlot (item : Item) (s : State) :
    endTick (endOfSlot item s) = endOfSlot item (endTick s) := by
  have hv : ∀ next, itemValue? none (endTick s) next = itemValue? none s next :=
    itemValue?_congr rfl none
  simp only [endOfSlot, nextByte, endTick_bitIdx, endTick_byteIdx, endTick_op, hv]
  split
  · simp only [shiftOut]; split <;> rfl
  · split
    · cases item <;> rfl
    · cases item <;> rfl

theorem endOfPrimitive_of_item {s : State} {item : Item} (h : itemNow? s = some item) :
    endOfPrimitive s = endOfSlot item { s with t := 0 } := by
  simp [endOfPrimitive, h]

/-- The 75 ticks of a slot of a byte: the sample, if it is a read slot, and then the end of the slot. -/
theorem ticks_slot {s : State} {item : Item} (hi : itemNow? s = some item) (ht : s.t = 0)
    (hr : noReset 75 s) : ticks 75 s = .next (endOfSlot item { afterTicks 75 s with
      t := 0, sh := slotSample item s.sh (owInAt 10 s) }) := by
  have h1 := ticks_in_slot 74 hi ht (noReset_mono hr (by omega)) (by omega)
  rw [if_neg (by omega)] at h1
  let u : State := { atOffset 74 74 s with sh := slotSample item s.sh (owInAt 10 s) }
  have hu : itemNow? u = some item := hi
  have h2 : step u = .next (endTick (endOfPrimitive u)) := by
    refine step_of_last (k := slotPrim item u.sh) ?_ (op_ne_idle_of_item hu) (kind?_of_item hu) ?_ ?_
    · rw [rstAt_of_eq_drop (s := s) (u := u) (n := 74) rfl]; exact hr 74 (by omega)
    · cases hw : isWriteItem item with
      | true => simp [sampleOffset?_slotPrim_write hw]
      | false => simp [slotPrim_read hw, sampleOffset?, u, atOffset]
    · rw [primLen_slotPrim]; rfl
  rw [show 75 = 74 + 1 from rfl, ticks_add 1 h1, ticks_one h2, endOfPrimitive_of_item hu, endTick_endOfSlot]
  congr 2
  simp [u, atOffset, endTick, afterTicks]

/-- The 75 ticks of one of the slots 0 to 6 of a byte. -/
theorem ticks_slot_inside {s : State} {item : Item} (hi : itemNow? s = some item) (ht : s.t = 0)
    (hj : s.bitIdx < 7) (hr : noReset 75 s) : ticks 75 s = .next { afterTicks 75 s with
      bitIdx := s.bitIdx + 1, t := 0, sh := slotOut item s.sh (owInAt 10 s) } := by
  rw [ticks_slot hi ht hr, endOfSlot, if_pos (by simpa using hj)]
  cases hw : isWriteItem item <;> simp [shiftOut, slotOut, slotSample, hw, afterTicks]

/-- The state at the first tick of slot `j` of a byte that starts in this tick. -/
def slotStart (item : Item) (j : Nat) (s : State) : State :=
  { afterTicks (75 * j) s with bitIdx := j, t := 0, sh := shAfter item s j }

/-- The slots 0 to 6 of a byte, one after the other. -/
theorem ticks_slots {s : State} {item : Item} (j : Nat) (hi : itemNow? s = some item) (ht : s.t = 0)
    (hb : s.bitIdx = 0) (hj : j ≤ 7) (hr : noReset (75 * j) s) :
    ticks (75 * j) s = .next (slotStart item j s) := by
  induction j with
  | zero =>
    obtain ⟨⟩ := s
    simp_all [slotStart, shAfter, afterTicks]
  | succ j ih =>
    have h1 := ih (by omega) (noReset_mono hr (by omega))
    have h2 := ticks_slot_inside (s := slotStart item j s) (item := item) hi rfl (by show j < 7; omega)
      (noReset_of_eq_drop (s := s) (n := 75 * j) (by rw [show 75 * j + 75 = 75 * (j + 1) by omega]; exact hr)
        rfl)
    have ho : owInAt 10 (slotStart item j s) = owInAt (75 * j + 10) s :=
      owInAt_of_eq_drop (s := s) rfl rfl 10
    rw [show 75 * (j + 1) = 75 * j + 75 by omega, ticks_add 75 h1, h2, ho]
    simp [slotStart, afterTicks, shAfter, Nat.add_assoc]
    omega

/-- Inside a byte, offset `r` of slot `j`. -/
theorem ticks_in_byte {s : State} {item : Item} (j r : Nat) (hi : itemNow? s = some item) (ht : s.t = 0)
    (hb : s.bitIdx = 0) (hj : j ≤ 7) (hlt : r < 75) (hr : noReset (75 * j + r) s) :
    ticks (75 * j + r) s = .next { atOffset r r (slotStart item j s) with
      sh := if r ≤ 10 then shAfter item s j
        else slotSample item (shAfter item s j) (owInAt (75 * j + 10) s) } := by
  have h1 := ticks_slots j hi ht hb hj (noReset_mono hr (by omega))
  have h2 := ticks_in_slot (s := slotStart item j s) (item := item) r hi rfl
    (noReset_of_eq_drop (s := s) (n := 75 * j) hr rfl) hlt
  rw [ticks_add r h1, h2, owInAt_of_eq_drop (s := s) (u := slotStart item j s) (n := 75 * j) rfl rfl 10]
  rfl

/-- The direction output in a slot of a byte. -/
theorem owOe_of_item {s : State} {item : Item} (h : itemNow? s = some item) :
    owOe s = decide (s.t < lowLen (slotPrim item s.sh)) := by
  rw [owOe, kind?_of_item h]

/-- The direction output at offset `r` of slot `j` of a byte. -/
theorem owOe_in_byte {s : State} {item : Item} (j r : Nat) (hi : itemNow? s = some item) (ht : s.t = 0)
    (hb : s.bitIdx = 0) (hj : j ≤ 7) (hlt : r < 75) (hr : noReset (75 * j + r) s) :
    ∃ u, ticks (75 * j + r) s = .next u ∧ u.op = s.op ∧ u.byteIdx = s.byteIdx ∧ u.data = s.data ∧
      u.buf = s.buf ∧
      owOe u = decide (r < if isWriteItem item then (if s.sh.getLsbD j then 5 else 70) else 5) := by
  refine ⟨_, ticks_in_byte j r hi ht hb hj hlt hr, rfl, rfl, rfl, rfl, ?_⟩
  refine Eq.trans (owOe_of_item (item := item) ?_) ?_
  · exact hi
  show decide (r < lowLen (slotPrim item (if r ≤ 10 then shAfter item s j
    else slotSample item (shAfter item s j) (owInAt (75 * j + 10) s)))) = _
  cases hw : isWriteItem item with
  | false => rw [slotPrim_read hw]; rfl
  | true =>
    have hsh : shAfter item s j = s.sh >>> j := shAfter_write hw s j
    simp only [slotSample, hw, if_true, ite_self, hsh, slotPrim, BitVec.getLsbD_ushiftRight, Nat.add_zero]
    cases s.sh.getLsbD j <;> rfl

/-! ### A whole byte -/

/-- The state at the last tick of a byte, with that tick's `T <- 0`, after the sample of slot 7. -/
def byteEnd (item : Item) (s : State) : State :=
  { afterTicks 600 s with
    bitIdx := 7, t := 0, sh := slotSample item (shAfter item s 7) (owInAt 535 s) }

/-- The 600 ticks of a byte: where a read byte goes, and what comes next. -/
theorem ticks_byte {s : State} {item : Item} (hi : itemNow? s = some item) (ht : s.t = 0)
    (hb : s.bitIdx = 0) (hr : noReset 600 s) : ticks 600 s = .next
      (nextByte (byteEnd item s) (shiftOut item (storeByte item { byteEnd item s with bitIdx := 0 }))) := by
  have h1 := ticks_slots 7 hi ht hb (by omega) (noReset_mono hr (by omega))
  have h2 := ticks_slot (s := slotStart item 7 s) (item := item) hi rfl
    (noReset_of_eq_drop (s := s) (n := 525) hr rfl)
  have ho : owInAt 10 (slotStart item 7 s) = owInAt 535 s :=
    owInAt_of_eq_drop (s := s) (n := 525) rfl rfl 10
  have he : ({ afterTicks 75 (slotStart item 7 s) with
      t := 0, sh := slotSample item (slotStart item 7 s).sh (owInAt 10 (slotStart item 7 s)) } : State) =
      byteEnd item s := by
    rw [ho]; simp [slotStart, byteEnd, afterTicks, Nat.add_assoc]
  rw [show 600 = 75 * 7 + 75 from rfl, ticks_add 75 h1, h2, he, endOfSlot, if_neg (by simp [byteEnd])]

/-- A write byte that another byte follows. -/
theorem ticks_write_byte {s : State} {item next : Item} (hi : itemNow? s = some item)
    (hw : isWriteItem item = true) (hn : (plan s.op)[s.byteIdx + 1]? = some next) (ht : s.t = 0)
    (hb : s.bitIdx = 0) (hr : noReset 600 s) : ticks 600 s = .next { afterTicks 600 s with
      byteIdx := s.byteIdx + 1, bitIdx := 0, t := 0, sh := (itemValue? none s next).getD 0x00#8 } := by
  have hsh : shAfter item s 7 >>> 1 = 0x00#8 := by
    have := shAfter_write_all hw s
    rwa [shAfter, slotOut, if_pos hw] at this
  have hn' : (plan (byteEnd item s).op)[(byteEnd item s).byteIdx + 1]? = some next := hn
  have hv : itemValue? none (byteEnd item s) next = itemValue? none s next := itemValue?_congr rfl none next
  rw [ticks_byte hi ht hb hr, nextByte, hn']
  simp only [hv]
  cases item <;> simp_all [isWriteItem, storeByte, shiftOut, loadSh, byteEnd, slotSample]

/-- A write byte that ends its command. -/
theorem ticks_last_write_byte {s : State} {item : Item} (hi : itemNow? s = some item)
    (hw : isWriteItem item = true) (hn : nbytes s.op = s.byteIdx + 1) (ht : s.t = 0)
    (hb : s.bitIdx = 0) (hr : noReset 600 s) :
    ticks 600 s = .next { restedAfter 600 s with sh := 0x00#8 } := by
  have hsh : shAfter item s 7 >>> 1 = 0x00#8 := by
    have := shAfter_write_all hw s
    rwa [shAfter, slotOut, if_pos hw] at this
  have hn' : (plan (byteEnd item s).op)[(byteEnd item s).byteIdx + 1]? = none :=
    List.getElem?_eq_none (Nat.le_of_eq hn)
  rw [ticks_byte hi ht hb hr, nextByte, hn']
  cases item <;> simp_all [isWriteItem, storeByte, shiftOut, byteEnd, slotSample, restedAfter, seqTo]

/-- The byte a read byte that starts in this tick receives. -/
def receivedByte (s : State) : Byte := shAfter .rd s 8

theorem receivedByte_getLsbD (s : State) (j : Nat) (hj : j < 8) :
    (receivedByte s).getLsbD j = owInAt (75 * j + 10) s := shAfter_read_all rfl s j hj

theorem shAfter_read_eq {item : Item} (hw : isWriteItem item = false) (s : State) :
    shAfter item s 8 = receivedByte s := by
  refine BitVec.eq_of_getLsbD_eq fun j hj => ?_
  rw [shAfter_read_all hw s j hj, receivedByte_getLsbD s j hj]

theorem byteEnd_read_sh {item : Item} (hw : isWriteItem item = false) (s : State) :
    (byteEnd item s).sh = receivedByte s := by
  rw [← shAfter_read_eq hw s]
  simp [byteEnd, shAfter, slotSample, slotOut, hw]

/-- RDBYTE's byte. -/
theorem ticks_read_data {s : State} (hi : itemNow? s = some .rd) (hn : nbytes s.op = s.byteIdx + 1)
    (ht : s.t = 0) (hb : s.bitIdx = 0) (hr : noReset 600 s) :
    ticks 600 s = .next { restedAfter 600 s with data := receivedByte s, sh := receivedByte s } := by
  have hn' : (plan (byteEnd .rd s).op)[(byteEnd .rd s).byteIdx + 1]? = none :=
    List.getElem?_eq_none (Nat.le_of_eq hn)
  have hsh := byteEnd_read_sh (item := .rd) rfl s
  rw [ticks_byte hi ht hb hr, nextByte, hn']
  simp only [storeByte, shiftOut, isWriteItem, Bool.false_eq_true, if_false, hsh]
  simp [byteEnd, restedAfter, seqTo, afterTicks]

/-- A byte read into `BUF[i]` that another read byte follows. -/
theorem ticks_read_buf {s : State} {i : BufIdx} {next : Item} (hi : itemNow? s = some (.rb i))
    (hn : (plan s.op)[s.byteIdx + 1]? = some next) (hnr : isWriteItem next = false) (ht : s.t = 0)
    (hb : s.bitIdx = 0) (hr : noReset 600 s) : ticks 600 s = .next { afterTicks 600 s with
      byteIdx := s.byteIdx + 1, bitIdx := 0, t := 0, sh := receivedByte s
      buf := Memory.put i.val (receivedByte s) s.buf } := by
  have hn' : (plan (byteEnd (.rb i) s).op)[(byteEnd (.rb i) s).byteIdx + 1]? = some next := hn
  have hsh := byteEnd_read_sh (item := .rb i) rfl s
  rw [ticks_byte hi ht hb hr, nextByte, hn']
  have hv : ∀ u, itemValue? none u next = none := by cases next <;> simp_all [isWriteItem, itemValue?]
  simp only [storeByte, shiftOut, isWriteItem, Bool.false_eq_true, if_false, hsh, hv, loadSh, memWrite]
  simp [byteEnd, afterTicks]

/-- A byte read into `BUF[i]` that ends its command. -/
theorem ticks_last_read_buf {s : State} {i : BufIdx} (hi : itemNow? s = some (.rb i))
    (hn : nbytes s.op = s.byteIdx + 1) (ht : s.t = 0) (hb : s.bitIdx = 0) (hr : noReset 600 s) :
    ticks 600 s = .next { restedAfter 600 s with
      sh := receivedByte s, buf := Memory.put i.val (receivedByte s) s.buf } := by
  have hn' : (plan (byteEnd (.rb i) s).op)[(byteEnd (.rb i) s).byteIdx + 1]? = none :=
    List.getElem?_eq_none (Nat.le_of_eq hn)
  have hsh := byteEnd_read_sh (item := .rb i) rfl s
  rw [ticks_byte hi ht hb hr, nextByte, hn']
  simp only [storeByte, shiftOut, isWriteItem, Bool.false_eq_true, if_false, hsh, memWrite]
  simp [byteEnd, restedAfter, seqTo, afterTicks]

end Sys2Proof.Machine
end

