-- ==== Sys2Proof/Laws/Tick.lean ====
section
/-! SUPPORT. What a busy tick leaves, field by field, in each of its cases (spec/10_state.md R44,
spec/43_byte_transfer.md R195), and everything a busy tick can do. -/

namespace Sys2Proof.Machine

/-- `DATA` once a byte is complete. -/
def dataAfterByte (item : Item) (s : State) : Byte := if item = .rd then s.sh else s.data

/-- `BUF` once a byte is complete. -/
def bufAfterByte (item : Item) (s : State) : Memory :=
  match item with
  | .rb i => Memory.put i.val s.sh s.buf
  | .wc _ => s.buf
  | .wi => s.buf
  | .wb _ => s.buf
  | .rd => s.buf

/-- The shifter at the end of a slot. -/
def shAfterSlot (item : Item) (s : State) : Byte := if isWriteItem item then s.sh >>> 1 else s.sh

theorem itemNow?_of_primitive {s : State} {k : Prim} (h : primitiveOf? s.op = some k) : itemNow? s = none := by
  cases ho : s.op <;> simp_all [itemNow?, plan, primitiveOf?]

/-- A busy controller is inside a primitive command or at an item of a byte plan. -/
theorem kind?_cases {s : State} {k : Prim} (h : kind? s = some k) :
    primitiveOf? s.op = some k ∨ ∃ item, itemNow? s = some item ∧ k = slotPrim item s.sh := by
  unfold kind? at h
  split at h
  · next hp => exact .inl (hp.trans h)
  · cases hi : itemNow? s with
    | none => simp [hi] at h
    | some item => exact .inr ⟨item, rfl, by simpa [hi] using h.symm⟩

theorem sense_t (k : Prim) (s : State) : (sense k s).t = s.t := by
  cases k with
  | reset => simp only [sense]; split <;> rfl
  | rd => simp only [sense]; split <;> (try split) <;> rfl
  | w1 => rfl
  | w0 => rfl

theorem sense_op (k : Prim) (s : State) : (sense k s).op = s.op := by
  cases k with
  | reset => simp only [sense]; split <;> rfl
  | rd => simp only [sense]; split <;> (try split) <;> rfl
  | w1 => rfl
  | w0 => rfl

/-- A tick of a primitive command: the sense step of its primitive, and the position. -/
theorem primitive_tick {s : State} {k : Prim} (h : primitiveOf? s.op = some k) :
    moveOn k (sense k s) = { s with
      pres := if k = .reset ∧ s.t = 565 then !owInAt 0 s else s.pres
      rbit := if k = .rd ∧ s.t = 10 then owInAt 0 s else s.rbit
      t := if s.t < primLen k - 1 then s.t + 1 else 0
      op := if s.t < primLen k - 1 then s.op else .idle } := by
  have hi : itemNow? (sense k s) = none := itemNow?_of_primitive (k := k) (by rw [sense_op]; exact h)
  have hrd : k = .rd → s.op = .rdbit := by
    rintro rfl; revert h; cases s.op <;> simp [primitiveOf?]
  have hs : sense k s = { s with
      pres := if k = .reset ∧ s.t = 565 then !owInAt 0 s else s.pres
      rbit := if k = .rd ∧ s.t = 10 then owInAt 0 s else s.rbit } := by
    cases k with
    | reset => by_cases ht : s.t = 565 <;> simp [sense, tRstl, tPds, ht]
    | rd =>
      have ho := hrd rfl
      by_cases ht : s.t = 10
      · simp [sense, tRdl, tRds, ht, ho]
      · simp [sense, tRdl, tRds, ht]
    | w1 => simp [sense]
    | w0 => simp [sense]
  rw [moveOn, sense_t]
  by_cases ht : s.t < primLen k - 1
  · rw [if_pos ht, if_pos ht, if_pos ht, hs]
  · rw [if_neg ht, if_neg ht, if_neg ht, endOfPrimitive, hi, hs]

/-- A tick inside a slot of a byte. -/
theorem slot_tick_inside {s : State} {item : Item} (h : itemNow? s = some item) (ht : s.t < 74) :
    moveOn (slotPrim item s.sh) (sense (slotPrim item s.sh) s) = { s with
      t := s.t + 1
      sh := if isWriteItem item = false ∧ s.t = 10 then shiftIn s.sh (owInAt 0 s) else s.sh } := by
  rw [moveOn, sense_t, primLen_slotPrim, if_pos (by omega)]
  cases hw : isWriteItem item with
  | true =>
    rw [sense_of_not_sample (by simp [sampleOffset?_slotPrim_write hw])]
    simp
  | false =>
    rw [slotPrim_read hw]
    by_cases h10 : s.t = 10 <;> simp [sense, tRdl, tRds, h10, op_ne_rdbit_of_item h]

theorem slot_last_no_sample {s : State} {item : Item} (ht : 74 ≤ s.t) :
    sense (slotPrim item s.sh) s = s := by
  refine sense_of_not_sample ?_
  cases hw : isWriteItem item with
  | true => simp [sampleOffset?_slotPrim_write hw]
  | false =>
    rw [slotPrim_read hw]
    simp only [sampleOffset?, ne_eq, Option.some.injEq]
    omega

/-- The last tick of slots 0 to 6 of a byte. -/
theorem slot_tick_last {s : State} {item : Item} (h : itemNow? s = some item) (ht : 74 ≤ s.t)
    (hb : s.bitIdx < 7) : moveOn (slotPrim item s.sh) (sense (slotPrim item s.sh) s) = { s with
      t := 0, bitIdx := s.bitIdx + 1, sh := shAfterSlot item s } := by
  rw [slot_last_no_sample ht, moveOn, primLen_slotPrim, if_neg (by omega), endOfPrimitive_of_item h, endOfSlot,
    if_pos (by simpa using hb)]
  cases hw : isWriteItem item <;> simp [shiftOut, shAfterSlot, hw]

/-- The last tick of a byte that another byte follows. -/
theorem byte_tick_last_next {s : State} {item next : Item} (h : itemNow? s = some item) (ht : 74 ≤ s.t)
    (hb : 7 ≤ s.bitIdx) (hn : (plan s.op)[s.byteIdx + 1]? = some next) :
    moveOn (slotPrim item s.sh) (sense (slotPrim item s.sh) s) = { s with
      t := 0, bitIdx := 0, byteIdx := s.byteIdx + 1, data := dataAfterByte item s
      buf := bufAfterByte item s, sh := (itemValue? none s next).getD (shAfterSlot item s) } := by
  have hv : itemValue? none { s with t := 0 } next = itemValue? none s next := itemValue?_congr rfl none next
  rw [slot_last_no_sample ht, moveOn, primLen_slotPrim, if_neg (by omega), endOfPrimitive_of_item h, endOfSlot,
    if_neg (by simpa using hb), nextByte]
  simp only [hn, hv]
  cases item <;> simp [shiftOut, storeByte, shAfterSlot, isWriteItem, loadSh, dataAfterByte, bufAfterByte, memWrite]

/-- The last tick of a byte command. -/
theorem byte_tick_last_end {s : State} {item : Item} (h : itemNow? s = some item) (ht : 74 ≤ s.t)
    (hb : 7 ≤ s.bitIdx) (hn : (plan s.op)[s.byteIdx + 1]? = none) :
    moveOn (slotPrim item s.sh) (sense (slotPrim item s.sh) s) = { s with
      t := 0, bitIdx := 0, byteIdx := 0, op := .idle, data := dataAfterByte item s
      buf := bufAfterByte item s, sh := shAfterSlot item s } := by
  rw [slot_last_no_sample ht, moveOn, primLen_slotPrim, if_neg (by omega), endOfPrimitive_of_item h, endOfSlot,
    if_neg (by simpa using hb), nextByte]
  simp only [hn]
  cases item <;> simp [shiftOut, storeByte, shAfterSlot, isWriteItem, dataAfterByte, bufAfterByte, memWrite]

/-- Everything a busy tick can do. -/
theorem busy_tick_cases {s : State} {k : Prim} (hk : kind? s = some k) :
    (primitiveOf? s.op = some k ∧ moveOn k (sense k s) = { s with
      pres := if k = .reset ∧ s.t = 565 then !owInAt 0 s else s.pres
      rbit := if k = .rd ∧ s.t = 10 then owInAt 0 s else s.rbit
      t := if s.t < primLen k - 1 then s.t + 1 else 0
      op := if s.t < primLen k - 1 then s.op else .idle }) ∨
    ∃ item, itemNow? s = some item ∧ primitiveOf? s.op = none ∧ k = slotPrim item s.sh ∧
      ((s.t < 74 ∧ moveOn k (sense k s) = { s with
          t := s.t + 1
          sh := if isWriteItem item = false ∧ s.t = 10 then shiftIn s.sh (owInAt 0 s) else s.sh }) ∨
        (74 ≤ s.t ∧ s.bitIdx < 7 ∧ moveOn k (sense k s) = { s with
          t := 0, bitIdx := s.bitIdx + 1, sh := shAfterSlot item s }) ∨
        (74 ≤ s.t ∧ 7 ≤ s.bitIdx ∧ ∃ next, (plan s.op)[s.byteIdx + 1]? = some next ∧
          moveOn k (sense k s) = { s with
            t := 0, bitIdx := 0, byteIdx := s.byteIdx + 1, data := dataAfterByte item s
            buf := bufAfterByte item s, sh := (itemValue? none s next).getD (shAfterSlot item s) }) ∨
        (74 ≤ s.t ∧ 7 ≤ s.bitIdx ∧ (plan s.op)[s.byteIdx + 1]? = none ∧
          moveOn k (sense k s) = { s with
            t := 0, bitIdx := 0, byteIdx := 0, op := .idle, data := dataAfterByte item s
            buf := bufAfterByte item s, sh := shAfterSlot item s })) := by
  rcases kind?_cases hk with hp | ⟨item, hi, rfl⟩
  · exact .inl ⟨hp, primitive_tick hp⟩
  · refine .inr ⟨item, hi, primitiveOf?_of_item hi, rfl, ?_⟩
    by_cases ht : s.t < 74
    · exact .inl ⟨ht, slot_tick_inside hi ht⟩
    · have ht' : 74 ≤ s.t := by omega
      by_cases hb : s.bitIdx < 7
      · exact .inr (.inl ⟨ht', hb, slot_tick_last hi ht' hb⟩)
      · have hb' : 7 ≤ s.bitIdx := by omega
        cases hn : (plan s.op)[s.byteIdx + 1]? with
        | some next => exact .inr (.inr (.inl ⟨ht', hb', next, rfl, byte_tick_last_next hi ht' hb' hn⟩))
        | none => exact .inr (.inr (.inr ⟨ht', hb', rfl, byte_tick_last_end hi ht' hb' hn⟩))

end Sys2Proof.Machine
end

