-- ==== Sys2Proof/Laws/Invariant.lean ====
section
/-! SUPPORT. The invariant taken apart and put together: the three kinds of legal sequencer position
(spec/10_state.md R36 to R39). -/

namespace Sys2Proof.Machine

/-- A legal position is idle with every counter 0, inside a primitive command, or at an item of a byte plan. -/
theorem seqLegal_cases {s : State} (h : seqLegal s = true) :
    (s.op = .idle ∧ s.byteIdx = 0 ∧ s.bitIdx = 0 ∧ s.t = 0) ∨
    (∃ k, primitiveOf? s.op = some k ∧ s.byteIdx = 0 ∧ s.bitIdx = 0 ∧ s.t < primLen k) ∨
    (∃ item, itemNow? s = some item ∧ s.byteIdx < nbytes s.op ∧ s.bitIdx < 8 ∧ s.t < 75) := by
  unfold seqLegal at h
  split at h
  · next k hk =>
    simp only [Bool.and_eq_true, decide_eq_true_eq] at h
    exact .inr (.inl ⟨k, hk, h.1.1, h.1.2, h.2⟩)
  · split at h
    · next hi =>
      simp only [Bool.and_eq_true, decide_eq_true_eq] at h
      exact .inl ⟨hi, h.1.1, h.1.2, h.2⟩
    · simp only [Bool.and_eq_true, decide_eq_true_eq] at h
      exact .inr (.inr ⟨_, List.getElem?_eq_getElem h.1.1, h.1.1, h.1.2, h.2⟩)

theorem seqLegal_of_idle {s : State} (ho : s.op = .idle) (hy : s.byteIdx = 0) (hb : s.bitIdx = 0)
    (ht : s.t = 0) : seqLegal s = true := by
  simp [seqLegal, primitiveOf?, ho, hy, hb, ht]

theorem seqLegal_of_primitive {s : State} {k : Prim} (ho : primitiveOf? s.op = some k) (hy : s.byteIdx = 0)
    (hb : s.bitIdx = 0) (ht : s.t < primLen k) : seqLegal s = true := by
  simp [seqLegal, ho, hy, hb, ht]

theorem seqLegal_of_item {s : State} {item : Item} (hi : itemNow? s = some item) (hb : s.bitIdx < 8)
    (ht : s.t < 75) : seqLegal s = true := by
  have hy : s.byteIdx < nbytes s.op := (List.getElem?_eq_some_iff.mp hi).1
  have ht' : s.t < tSlot := ht
  simp [seqLegal, primitiveOf?_of_item hi, op_ne_idle_of_item hi, hy, hb, ht']

/-- A busy controller at a legal position is inside a primitive. -/
theorem kind?_of_seqLegal {s : State} (h : seqLegal s = true) (hb : s.op ≠ .idle) :
    ∃ k, kind? s = some k ∧ s.t < primLen k := by
  rcases seqLegal_cases h with ⟨hi, _⟩ | ⟨k, hk, _, _, ht⟩ | ⟨item, hi, _, _, ht⟩
  · exact absurd hi hb
  · exact ⟨k, by simp [kind?, hk], ht⟩
  · exact ⟨_, kind?_of_item hi, by rw [primLen_slotPrim]; exact ht⟩

theorem bufAfterByte_wf {s : State} (item : Item) (h : Memory.wf s.buf) : Memory.wf (bufAfterByte item s) := by
  cases item with
  | rb i => exact Memory.put_wf s.sh i.isLt h
  | wc c => exact h
  | wi => exact h
  | wb i => exact h
  | rd => exact h

end Sys2Proof.Machine
end

