-- ==== Sys2Proof/Laws/Command.lean ====
section
/-! SUPPORT. A run of several ticks: what it does to the input streams, a primitive command from its first tick
to its last, and what the line carries during a byte (spec/10_state.md R44, spec/43_byte_transfer.md
R190). -/

namespace Sys2Proof.Machine

/-! ### The input streams -/

/-- No command touches the input streams, the tick number, `PRES` or `RBIT` when it is accepted. -/
theorem exec_keeps {i : Instr} {s u : State} (h : exec i s = .next u) :
    u.pres = s.pres ∧ u.rbit = s.rbit ∧ u.rsts = s.rsts ∧ u.cmds = s.cmds ∧ u.rdSels = s.rdSels ∧
      u.levels = s.levels ∧ u.tick = s.tick := by
  cases i with
  | stbuf idx imm => simp only [exec, execStbuf] at h; split at h <;> cases h <;> simp
  | ldbuf idx => simp only [exec, execLdbuf] at h; split at h <;> cases h <;> simp
  | crcbuf len => simp only [exec, execCrcbuf] at h; split at h <;> cases h <;> simp
  | _ => cases h; simp

/-- A tick moves every input stream on by one. -/
theorem step_streams {s t : State} (h : step s = .next t) :
    t.rsts = s.rsts.drop 1 ∧ t.cmds = s.cmds.drop 1 ∧ t.rdSels = s.rdSels.drop 1 ∧
      t.levels = s.levels.drop 1 ∧ t.tick = s.tick + 1 := by
  rcases step_cases h with ⟨_, rfl⟩ | ⟨_, _, _, rfl⟩ | ⟨_, _, _, rfl⟩ | ⟨i, u, _, hu, rfl⟩ | ⟨_, _, k, hk, rfl⟩
  · simp
  · simp
  · simp
  · obtain ⟨-, -, h1, h2, h3, h4, h5⟩ := exec_keeps hu
    simp [h1, h2, h3, h4, h5]
  · rcases busy_tick_cases hk with ⟨_, he⟩ | ⟨item, _, _, rfl, ⟨_, he⟩ | ⟨_, _, he⟩ | ⟨_, _, _, _, he⟩ |
      ⟨_, _, _, he⟩⟩ <;> rw [he] <;> simp

/-- `n` ticks move every input stream on by `n`. -/
theorem ticks_streams {n : Nat} {s t : State} (h : ticks n s = .next t) :
    t.rsts = s.rsts.drop n ∧ t.cmds = s.cmds.drop n ∧ t.rdSels = s.rdSels.drop n ∧
      t.levels = s.levels.drop n ∧ t.tick = s.tick + n := by
  induction n generalizing s with
  | zero => cases h; simp
  | succ n ih =>
    cases hs : step s with
    | next v =>
      rw [ticks_succ_of_step n hs] at h
      obtain ⟨h1, h2, h3, h4, h5⟩ := ih h
      obtain ⟨g1, g2, g3, g4, g5⟩ := step_streams hs
      simp only [h1, h2, h3, h4, h5, g1, g2, g3, g4, g5, List.drop_drop]
      exact ⟨by rw [Nat.add_comm], by rw [Nat.add_comm], by rw [Nat.add_comm], by rw [Nat.add_comm], by omega⟩
    | fault r => simp [ticks, hs] at h
    | refused r => simp [ticks, hs] at h

/-- The first tick of an accepted command. -/
theorem ticks_one_of_accept {i : Instr} {s u : State} (ha : accepts i s) (hu : exec i s = .next u) :
    ticks 1 s = .next (endTick u) :=
  ticks_one (by rw [step_of_accept ha, hu]; rfl)

/-! ### A primitive command -/

theorem op_ne_idle_of_primitive {s : State} {k : Prim} (h : primitiveOf? s.op = some k) : s.op ≠ .idle := by
  intro ho; simp [primitiveOf?, ho] at h

theorem kind?_of_primitive {s : State} {k : Prim} (h : primitiveOf? s.op = some k) : kind? s = some k := by
  simp [kind?, h]

/-- The first `r` ticks of a primitive command without a sample. -/
theorem ticks_in_write_primitive {s : State} {k : Prim} (hp : primitiveOf? s.op = some k)
    (hq : sampleOffset? k = none) (ht : s.t = 0) (r : Nat) (hr : noReset r s) (hlt : r < primLen k) :
    ticks r s = .next (atOffset r r s) := by
  have := ticks_count r (op_ne_idle_of_primitive hp) (kind?_of_primitive hp) hr (fun x _ _ => by simp [hq])
    (by omega)
  rw [this, ht, Nat.zero_add]

/-- The first `r` ticks of a primitive command that samples at offset `q`. -/
theorem ticks_in_sample_primitive {s : State} {k : Prim} {q : Nat} (hp : primitiveOf? s.op = some k)
    (hq : sampleOffset? k = some q) (ht : s.t = 0) (r : Nat) (hr : noReset r s) (hlt : r < primLen k) :
    ticks r s = .next (if r ≤ q then atOffset r r s else atOffset r r
      (if k = .reset then { s with pres := !owInAt q s } else { s with rbit := owInAt q s })) := by
  have hb := op_ne_idle_of_primitive hp
  have hk := kind?_of_primitive hp
  by_cases h : r ≤ q
  · have := ticks_count r hb hk hr (fun x _ h2 => by rw [hq]; simp; omega) (by omega)
    rw [this, if_pos h, ht, Nat.zero_add]
  · obtain ⟨n, rfl⟩ : ∃ n, r = q + (1 + n) := ⟨r - q - 1, by omega⟩
    have h1 := ticks_count q hb hk (noReset_mono hr (by omega)) (fun x _ h2 => by rw [hq]; simp; omega)
      (by omega)
    rw [ht, Nat.zero_add] at h1
    have hr0 : rstAt 0 (atOffset q q s) = false := by
      rw [rstAt_of_eq_drop (s := s) (n := q) rfl]; exact hr q (by omega)
    have ho : owInAt 0 (atOffset q q s) = owInAt q s := owInAt_of_eq_drop (s := s) rfl rfl 0
    let v : State := atOffset (q + 1) (q + 1)
      (if k = .reset then { s with pres := !owInAt q s } else { s with rbit := owInAt q s })
    have hs : step (atOffset q q s) = .next v := by
      have hlt' : (atOffset q q s).t < primLen k - 1 := by show q < _; omega
      rw [step_of_busy hr0 hb ((kind?_atOffset _ _ _).trans hk), primitive_tick (s := atOffset q q s) hp, ho,
        if_pos hlt', if_pos hlt']
      cases k with
      | reset => cases hq; simp [v, atOffset, endTick, afterTicks]
      | rd => cases hq; simp [v, atOffset, endTick, afterTicks]
      | w1 => cases hq
      | w0 => cases hq
    have hv : primitiveOf? v.op = some k := by
      rw [show v.op = s.op by simp only [v]; split <;> rfl, hp]
    have hvr : v.rsts = s.rsts.drop (q + 1) := by simp only [v]; split <;> rfl
    have hvt : v.t = q + 1 := rfl
    have h3 := ticks_count n (op_ne_idle_of_primitive hv) (kind?_of_primitive hv)
      (noReset_of_eq_drop (s := s) (n := q + 1) (by rw [Nat.add_assoc]; exact hr) hvr)
      (fun x h1 _ => by rw [hq]; simp; omega) (by omega)
    rw [ticks_add _ h1, ticks_add n (ticks_one hs), h3, if_neg (by omega)]
    simp only [v, hvt]
    split <;> simp [atOffset, afterTicks, Nat.add_assoc]

/-- The last tick of a primitive command. -/
theorem step_of_primitive_end {s : State} {k : Prim} (hp : primitiveOf? s.op = some k)
    (hr : rstAt 0 s = false) (ht : s.t + 1 = primLen k) (hq : sampleOffset? k ≠ some s.t) :
    step s = .next { endTick s with t := 0, op := .idle } := by
  rw [step_of_last hr (op_ne_idle_of_primitive hp) (kind?_of_primitive hp) hq ht, endOfPrimitive,
    itemNow?_of_primitive hp]
  rfl

/-! ### What the line carries during a byte -/

theorem sendsByte_of_item {s u : State} {n : Nat} {item : Item} (h : ticks n s = .next u)
    (hi : itemNow? u = some item) (hw : isWriteItem item = true) (ht : u.t = 0) (hb : u.bitIdx = 0)
    (hr : noReset 600 u) : sendsByte n u.sh s := by
  intro j hj r hlt
  obtain ⟨v, hv, hop, -, -, -, ho⟩ :=
    owOe_in_byte j r hi ht hb (by omega) hlt (noReset_mono hr (by omega))
  refine ⟨v, by rw [Nat.add_assoc, ticks_add _ h]; exact hv, ?_, ?_⟩
  · simp [busy, hop, op_ne_idle_of_item hi]
  rw [ho, hw]
  rfl

theorem readsByte_of_item {s u : State} {n : Nat} {item : Item} (h : ticks n s = .next u)
    (hi : itemNow? u = some item) (hw : isWriteItem item = false) (ht : u.t = 0) (hb : u.bitIdx = 0)
    (hr : noReset 600 u) : readsByte n s := by
  intro j hj r hlt
  obtain ⟨v, hv, hop, -, -, -, ho⟩ :=
    owOe_in_byte j r hi ht hb (by omega) hlt (noReset_mono hr (by omega))
  refine ⟨v, by rw [Nat.add_assoc, ticks_add _ h]; exact hv, ?_, ?_⟩
  · simp [busy, hop, op_ne_idle_of_item hi]
  rw [ho, hw]
  rfl

end Sys2Proof.Machine
end

