-- ==== Sys2Proof/Laws/Crc.lean ====
section
/-! SUPPORT. CRC-8: the fold one byte at a time, and the accumulator 0x00 as a fixed point of the eight shifts
(spec/40_crc8.md R120, R121). -/

namespace Sys2Proof.Machine

@[simp] theorem crc8_nil : crc8 [] = 0x00#8 := rfl

/-- The checksum of one byte more is one byte step more. -/
theorem crc8_append_singleton (bytes : List Byte) (b : Byte) :
    crc8 (bytes ++ [b]) = crc8Byte (crc8 bytes) b := by simp [crc8]

/-- "eight shifts of 0x00 give 0x00" (spec/40_crc8.md R123). -/
theorem crcShift_zero : crcShift 0x00#8 = 0x00#8 := by decide

end Sys2Proof.Machine
end

