-- ==== Sys2Proof/Laws/PerInstr.lean ====
section
/-! SUPPORT. The family RoundTrip: the decoder reads back the word of every well-formed command. -/

namespace Sys2Proof.Laws

/-- Decoding the word of a well-formed command gives the command back. -/
def RoundTrip.Statement (i : Instr) : Prop := i.wf = true → decode (encode i) = .command i

theorem RoundTrip.nop : RoundTrip.Statement .nop := by intro _; decide
theorem RoundTrip.reset : RoundTrip.Statement .reset := by intro _; decide
theorem RoundTrip.rdbit : RoundTrip.Statement .rdbit := by intro _; decide
theorem RoundTrip.wr0 : RoundTrip.Statement .wr0 := by intro _; decide
theorem RoundTrip.wr1 : RoundTrip.Statement .wr1 := by intro _; decide
theorem RoundTrip.wrbyte (imm : Byte) : RoundTrip.Statement (.wrbyte imm) := by
  intro _; simp [encode, decodeFields, decodeFormatS]
theorem RoundTrip.rdbyte : RoundTrip.Statement .rdbyte := by intro _; decide
theorem RoundTrip.rdrom : RoundTrip.Statement .rdrom := by intro _; decide
theorem RoundTrip.skiprom : RoundTrip.Statement .skiprom := by intro _; decide
theorem RoundTrip.convt : RoundTrip.Statement .convt := by intro _; decide
theorem RoundTrip.rdscr : RoundTrip.Statement .rdscr := by intro _; decide
theorem RoundTrip.wrscr : RoundTrip.Statement .wrscr := by intro _; decide
theorem RoundTrip.crcclr : RoundTrip.Statement .crcclr := by intro _; decide
theorem RoundTrip.crcupd (imm : Byte) : RoundTrip.Statement (.crcupd imm) := by
  intro _; simp [encode, decodeFields, decodeFormatS]
theorem RoundTrip.stbuf (idx : Nibble) (imm : Byte) : RoundTrip.Statement (.stbuf idx imm) := by
  intro h; simp_all [Instr.wf, encode, decodeFields]
theorem RoundTrip.ldbuf (idx : Nibble) : RoundTrip.Statement (.ldbuf idx) := by
  intro h; simp_all [Instr.wf, encode, decodeFields, needZeroImm]
theorem RoundTrip.crcbuf (len : Nibble) : RoundTrip.Statement (.crcbuf len) := by
  intro h; simp_all [Instr.wf, encode, decodeFields, needZeroImm]

end Sys2Proof.Laws
end

