-- ==== Sys2Proof/Tests/Slice0.lean ====
section
/-! SUPPORT. The model's own tests. Expected values come from spec/95_test_vectors.md and from the examples
and tables of the rules, named at each test; then the witnesses: for each statement with hypotheses, a state
and operands that meet them all. -/

namespace Sys2Proof.Tests

open Sys2Proof Sys2Proof.Machine

/-! ### Well-formedness: an ill-formed term for each check, and the boundary -/

theorem test_wf_refuses_stbuf_9 : Instr.wf (.stbuf 9 0x12) = false := by decide
theorem test_wf_takes_stbuf_8 : Instr.wf (.stbuf 8 0x12) = true := by decide
theorem test_wf_refuses_ldbuf_9 : Instr.wf (.ldbuf 9) = false := by decide
theorem test_wf_takes_ldbuf_8 : Instr.wf (.ldbuf 8) = true := by decide
theorem test_wf_refuses_crcbuf_10 : Instr.wf (.crcbuf 10) = false := by decide
theorem test_wf_takes_crcbuf_9 : Instr.wf (.crcbuf 9) = true := by decide

/-! ### Decoding: a word of every command, written out from spec/30_encoding.md R94 and R95 -/

theorem test_decode_nop : decode 0b0000000000000000 = .command .nop := by decide
theorem test_decode_reset : decode 0b0000000100000000 = .command .reset := by decide
theorem test_decode_rdbit : decode 0b0000001000000000 = .command .rdbit := by decide
theorem test_decode_wr0 : decode 0b0000001100000000 = .command .wr0 := by decide
theorem test_decode_wr1 : decode 0b0000010000000000 = .command .wr1 := by decide
theorem test_decode_wrbyte : decode 0b0000010110100101 = .command (.wrbyte 0xA5) := by decide
theorem test_decode_rdbyte : decode 0b0000011000000000 = .command .rdbyte := by decide
theorem test_decode_rdrom : decode 0b0000011100000000 = .command .rdrom := by decide
theorem test_decode_skiprom : decode 0b0000100000000000 = .command .skiprom := by decide
theorem test_decode_convt : decode 0b0000100100000000 = .command .convt := by decide
theorem test_decode_rdscr : decode 0b0000101000000000 = .command .rdscr := by decide
theorem test_decode_wrscr : decode 0b0000101100000000 = .command .wrscr := by decide
theorem test_decode_crcclr : decode 0b0000110000000000 = .command .crcclr := by decide
theorem test_decode_crcupd : decode 0b0000110111111111 = .command (.crcupd 0xFF) := by decide
theorem test_decode_stbuf : decode 0b0001100000010010 = .command (.stbuf 8 0x12) := by decide
theorem test_decode_ldbuf : decode 0b0010100000000000 = .command (.ldbuf 8) := by decide
theorem test_decode_crcbuf : decode 0b0011100100000000 = .command (.crcbuf 9) := by decide

/-- The illegal words of spec/95_test_vectors.md, one for each sub-cause of R261. -/
theorem test_decode_illegal :
    decode 0x0F00 = .illegal .reservedFunct ∧ decode 0x0E00 = .illegal .reservedFunct ∧
    decode 0x4000 = .illegal .reservedMajor ∧ decode 0xFFFF = .illegal .reservedMajor ∧
    decode 0x0001 = .illegal .immNotZero ∧ decode 0x2801 = .illegal .immNotZero ∧
    decode 0x3901 = .illegal .immNotZero ∧ decode 0x1900 = .illegal .idxOutOfRange ∧
    decode 0x2900 = .illegal .idxOutOfRange ∧ decode 0x3A00 = .illegal .lenOutOfRange := by decide

/-- A table word numbered as spec/opcode_table.json numbers it, and one that is no command. -/
theorem test_decodeTableWord : decodeTableWord 16 0x05A5 = some (.wrbyte 0xA5) ∧
    decodeTableWord 16 0x4000 = none := by decide

/-! ### One step of each command -/

/-- Right after reset, with the word on the command port. -/
def onPort (w : Word) : State := { State.reset with cmds := [some w] }

/-- Inside a command, with the level on `ow_in` in this tick. -/
def inside (op : Op) (y b t : Nat) (level : Bool) : State :=
  { State.reset with op := op, byteIdx := y, bitIdx := b, t := t, levels := [level] }

/-- The state a step answers, or the one it was given. -/
def after (s : State) : State :=
  match step s with
  | .next t => t
  | .fault _ => s
  | .refused _ => s

/-- V21: a NOP changes nothing but the streams and the tick number. -/
theorem test_nop : after (onPort 0x0000) = { State.reset with tick := 1 } := by decide

/-- R140: the accept effect of RESET; V11: the sample of offset 565. -/
theorem test_reset_accept : after (onPort 0x0100) = { State.reset with op := .reset, tick := 1 } := by decide
theorem test_reset_sample : (after (inside .reset 0 0 565 false)).pres = true ∧
    (after (inside .reset 0 0 564 false)).pres = false := by decide

/-- V12: RDBIT takes the level of offset 10, and is over at offset 74. -/
theorem test_rdbit_sample : (after (inside .rdbit 0 0 10 true)).rbit = true ∧
    (after (inside .rdbit 0 0 9 true)).rbit = false := by decide
theorem test_rdbit_end : (after (inside .rdbit 0 0 74 true)).op = .idle ∧
    (after (inside .rdbit 0 0 73 true)).op = .rdbit := by decide

/-- V13: the low pulse of WR0 and WR1, at its last and next offset. -/
theorem test_wr0_pulse : owOe (inside .wr0 0 0 69 true) = true ∧ owOe (inside .wr0 0 0 70 true) = false := by
  decide
theorem test_wr1_pulse : owOe (inside .wr1 0 0 4 true) = true ∧ owOe (inside .wr1 0 0 5 true) = false := by
  decide

/-- V14: WRBYTE 0x01 starts with its byte in the shifter, so slot 0 is a `W1` slot. -/
theorem test_wrbyte_accept : after (onPort 0x0501) =
    { State.reset with op := .wrbyte, sh := 0x01, tick := 1 } := by decide
theorem test_wrbyte_slot0 : kind? (after (onPort 0x0501)) = some .w1 := by decide

/-- R194, R197: the sample enters at bit 7; the last tick delivers the byte. -/
theorem test_rdbyte_sample : (after (inside .rdbyte 0 0 10 true)).sh = 0x80 := by decide
theorem test_rdbyte_end : (after { inside .rdbyte 0 7 74 true with sh := 0xC3 }).data = 0xC3 := by decide

/-- R210: RDROM starts with 0x33; the last tick of byte 3 writes `BUF[2]`. -/
theorem test_rdrom_accept : (after (onPort 0x0700)).sh = 0x33 := by decide
theorem test_rdrom_byte : memRead 2 (after { inside .rdrom 3 7 74 true with sh := 0x4B }) = 0x4B := by decide

/-- R211: SKIPROM starts with 0xCC and ends with its one byte. -/
theorem test_skiprom_accept : (after (onPort 0x0800)).sh = 0xCC := by decide
theorem test_skiprom_end : (after (inside .skiprom 0 7 74 true)).op = .idle := by decide

/-- R225: CONVT starts with 0x44 and ends with its one byte. -/
theorem test_convt_accept : (after (onPort 0x0900)).sh = 0x44 := by decide
theorem test_convt_end : (after (inside .convt 0 7 74 true)).op = .idle := by decide

/-- R226: RDSCR starts with 0xBE; the last tick of byte 9 writes `BUF[8]` and ends the command. -/
theorem test_rdscr_accept : (after (onPort 0x0A00)).sh = 0xBE := by decide
theorem test_rdscr_end : memRead 8 (after { inside .rdscr 9 7 74 true with sh := 0x1C }) = 0x1C ∧
    (after (inside .rdscr 9 7 74 true)).op = .idle := by decide

/-- V19: WRSCR starts with 0x4E; the last tick of byte 0 loads `BUF[0]`. -/
theorem test_wrscr_accept : (after (onPort 0x0B00)).sh = 0x4E := by decide
theorem test_wrscr_load : (after { inside .wrscr 0 7 74 true with buf := [(0, 0x4B)] }).sh = 0x4B := by decide

/-- R122: `CRC = 0xA1`, accept 0x0C00, then `CRC = 0x00`. -/
theorem test_crcclr : (after { onPort 0x0C00 with crc := 0xA1 }).crc = 0x00 := by decide

/-- V30: 0x0D01 on `CRC = 0x00` gives 0x5E, and 0x0D5E on that gives 0x00. -/
theorem test_crcupd : (after (onPort 0x0D01)).crc = 0x5E ∧
    (after { onPort 0x0D5E with crc := 0x5E }).crc = 0x00 := by decide +kernel

/-- V21: 0x124B stores, and a stored 0x00 leaves nothing listed. -/
theorem test_stbuf : (after (onPort 0x124B)).buf = [(2, 0x4B)] := by decide
theorem test_stbuf_zero : (after { onPort 0x1200 with buf := [(2, 0x4B)] }).buf = [] := by decide

/-- R248: `BUF[7] = 0xA5`; accept 0x2700; then `DATA = 0xA5`. -/
theorem test_ldbuf : (after { onPort 0x2700 with buf := [(7, 0xA5)] }).data = 0xA5 := by decide

/-- The buffer of R124's example. -/
def exampleBuf : Memory := [(0, 0x02), (1, 0x1C), (2, 0xB8), (3, 0x01), (7, 0xA2)]

/-- R124: 0x3700 gives 0xA2 and 0x3800 gives 0x00, whatever `CRC` held. -/
theorem test_crcbuf_7 : (after { onPort 0x3700 with buf := exampleBuf }).crc = 0xA2 := by decide +kernel
theorem test_crcbuf_8 : (after { onPort 0x3800 with buf := exampleBuf, crc := 0x77 }).crc = 0x00 := by
  decide +kernel

/-- V22: 0x1955 is illegal and only sets `ERR`. -/
theorem test_illegal : after (onPort 0x1955) = { State.reset with err := true, tick := 1 } := by decide

/-- V25: `rst = 1` with the word 0x0500 offered gives the reset registers. -/
theorem test_rst : after { onPort 0x0500 with
    rsts := [true], pres := true, err := true, data := 0xAA, crc := 0x55, sh := 0x03, buf := [(0, 0x01)] } =
    { State.reset with tick := 1 } := by decide

/-- R45: STATUS after reset is 0x10; V22's end is 0x08; R29: code 3 reads 0x00. -/
theorem test_status : status State.reset = 0x10 ∧ status { State.reset with err := true, crc := 0x5E } = 0x08 ∧
    readPort 3 State.reset = 0x00 := by decide

/-- `withFetchWord` offers its word to the next tick of any state, busy or in reset. -/
theorem test_withFetchWord :
    after ({ inside .wrscr 2 3 40 true with rsts := [true] }.withFetchWord 16 0x124B) =
      { State.reset with buf := [(2, 0x4B)], tick := 1 } := by decide

/-- R104: the expansion of CHKROM and of STSCR. -/
theorem test_expand : expand .chkrom = [.crcbuf 8] ∧
    expand (.stscr 0x4B 0x46 0x7F) = [.stbuf 0 0x4B, .stbuf 1 0x46, .stbuf 2 0x7F] := by decide

/-- R103: V21's program, a comment, and an operand out of range, which is an assembler error. -/
theorem test_assemble :
    assemble "STBUF 2, 0x4B ; store\nLDBUF 2\nNOP" = some [.stbuf 2 0x4B, .ldbuf 2, .nop] ∧
    assemble "CRC8 0x31, 50" = some [.crcclr, .crcupd 0x31, .crcupd 0x32] ∧
    assemble "STBUF 9, 1" = none ∧ assemble "CRCBUF 10" = none ∧ assemble "WRBYTE 256" = none := by
  decide +kernel

theorem test_reset_memory_wf : Memory.wf State.reset.buf := by decide

/-! ### Witnesses of the statements' hypotheses: encoding and acceptance -/

theorem witness_FormatSWordsDecode : (0x0EFF : Word) = 0x0E#8 ++ 0xFF#8 ∧ (0x0F00 : Word) = 0x0F#8 ++ 0x00#8 := by
  decide

theorem witness_ReservedOpcodesRaiseCmdError :
    (0x0E00 ≤ (0x0E00#16).toNat ∧ (0x0E00#16).toNat ≤ 0x0FFF) ∧
    (0x0E00 ≤ (0x0FFF#16).toNat ∧ (0x0FFF#16).toNat ≤ 0x0FFF) ∧
    0x4000 ≤ (0x4000#16).toNat ∧ 0x4000 ≤ (0xFFFF#16).toNat ∧
    ∀ w, (onPort w).op = .idle ∧ rstAt 0 (onPort w) = false ∧ cmdAt 0 (onPort w) = some w :=
  ⟨by decide, by decide, by decide, by decide, fun _ => ⟨rfl, rfl, rfl⟩⟩

theorem witness_NonzeroUnusedImmRaisesCmdError :
    Instr.wf (.crcbuf 9) = true ∧ (∀ imm, Instr.crcbuf 9 ≠ .wrbyte imm) ∧ (∀ imm, Instr.crcbuf 9 ≠ .crcupd imm) ∧
    (∀ idx imm, Instr.crcbuf 9 ≠ .stbuf idx imm) ∧ (0x01 : Byte) ≠ 0x00#8 ∧
    cmdAt 0 (onPort 0x3901) = some (encode (.crcbuf 9) ||| (0x01 : Byte).setWidth 16) ∧
    (onPort 0x3901).op = .idle ∧ rstAt 0 (onPort 0x3901) = false :=
  ⟨by decide, nofun, nofun, nofun, by decide, by decide, by decide, by decide⟩

theorem witness_OutOfRangeOperandsRaiseCmdError :
    (9 ≤ (9 : Nibble).toNat ∧ (0x19FF : Word) = 0x1#4 ++ (9 : Nibble) ++ (0xFF : Byte)) ∧
    (9 ≤ (15 : Nibble).toNat ∧ (0x2F00 : Word) = 0x2#4 ++ (15 : Nibble) ++ (0x00 : Byte)) ∧
    (10 ≤ (10 : Nibble).toNat ∧ (0x3A00 : Word) = 0x3#4 ++ (10 : Nibble) ++ (0x00 : Byte)) ∧
    ∀ w, (onPort w).op = .idle ∧ rstAt 0 (onPort w) = false ∧ cmdAt 0 (onPort w) = some w :=
  ⟨by decide, by decide, by decide, fun _ => ⟨rfl, rfl, rfl⟩⟩

theorem witness_StepRunsTheDecodedCommand :
    ((onPort 0x124B).op = .idle ∧ rstAt 0 (onPort 0x124B) = false ∧
      cmdAt 0 (onPort 0x124B) = some 0x124B#16 ∧ decode 0x124B = .command (.stbuf 2 0x4B)) ∧
    (State.reset.op = .idle ∧ rstAt 0 State.reset = false ∧ cmdAt 0 State.reset = none) ∧
    Instr.wf (.stbuf 8 0xFF) = true := by decide

theorem witness_RstGivesResetState : rstAt 0 { inside .reset 0 0 299 true with rsts := [true] } = true := by
  decide

theorem witness_IllegalWordSetsErrOnly :
    (onPort 0x1955).op = .idle ∧ rstAt 0 (onPort 0x1955) = false ∧
    cmdAt 0 (onPort 0x1955) = some 0x1955#16 ∧ decode 0x1955 = .illegal .idxOutOfRange ∧
    ∃ t, step { onPort 0x1955 with err := false } = .next t := ⟨rfl, rfl, rfl, rfl, _, rfl⟩

theorem witness_BusyTickIgnoresOfferedWord : (inside .rdbit 0 0 0 true).op ≠ .idle := by decide

theorem witness_LineIsReadInSampleTicksOnly :
    ¬((inside .reset 0 0 564 true).op = .reset ∧ (inside .reset 0 0 564 true).t = 565) ∧
    ¬(kind? (inside .reset 0 0 564 true) = some .rd ∧ (inside .reset 0 0 564 true).t = 10) ∧
    ¬((inside .rdbyte 0 3 11 true).op = .reset ∧ (inside .rdbyte 0 3 11 true).t = 565) ∧
    ¬(kind? (inside .rdbyte 0 3 11 true) = some .rd ∧ (inside .rdbyte 0 3 11 true).t = 10) ∧
    (∀ s ∈ [inside .reset 0 0 565 true, inside .rdbit 0 0 10 true, inside .rdscr 9 7 10 true],
      rstAt 0 s = false ∧ s.op ≠ .idle ∧
        ((s.op = .reset ∧ s.t = 565) ∨ (kind? s = some .rd ∧ s.t = 10))) := by decide

theorem witness_NeverSamplesWhileDriving : sampleTick (inside .reset 0 0 565 true) = true ∧
    sampleTick (inside .rdbit 0 0 10 true) = true ∧ sampleTick (inside .rdscr 9 7 10 true) = true := by decide

theorem witness_DirectionOutputFollowsOffset :
    State.reset.op = .idle ∧
    (∀ s ∈ [inside .reset 0 0 0 true, inside .reset 0 0 999 true], s.op ≠ .idle ∧ kind? s = some .reset ∧ Inv s) ∧
    (∀ s ∈ [inside .rdbit 0 0 0 true, inside .rdbit 0 0 74 true], s.op ≠ .idle ∧ kind? s = some .rd ∧ Inv s) ∧
    (∀ s ∈ [inside .wr1 0 0 0 true, inside .wr1 0 0 74 true], s.op ≠ .idle ∧ kind? s = some .w1 ∧ Inv s) ∧
    (∀ s ∈ [inside .wr0 0 0 0 true, inside .wr0 0 0 74 true], s.op ≠ .idle ∧ kind? s = some .w0 ∧ Inv s) := by
  decide

theorem witness_PrimitiveInProgress :
    (plan (inside .wrscr 3 0 0 true).op)[(inside .wrscr 3 0 0 true).byteIdx]? = some (.wb 2) ∧
    (plan (inside .rdscr 9 7 74 true).op)[(inside .rdscr 9 7 74 true).byteIdx]? = some (.rb 8) ∧
    kind? (inside .rdscr 9 7 73 true) = some .rd ∧ rstAt 0 (inside .rdscr 9 7 73 true) = false ∧
    (inside .rdscr 9 7 73 true).t + 1 < primLen .rd ∧ ∃ t, step (inside .rdscr 9 7 73 true) = .next t :=
  ⟨by decide, by decide, by decide, by decide, by decide, _, rfl⟩

theorem witness_NopChangesNothing : accepts .nop (onPort 0x0000) ∧ (0x01 : Byte) ≠ 0x00#8 := by decide

theorem witness_StbufStoresOneByte :
    (8 : Nibble).toNat = (8 : BufIdx).val ∧ (0 : Nibble).toNat = (0 : BufIdx).val ∧ Memory.wf exampleBuf ∧
    9 ≤ (9 : Nibble).toNat ∧ (0 : BufIdx) ≠ 8 := by decide

theorem witness_LdbufLoadsOneByte :
    (8 : Nibble).toNat = (8 : BufIdx).val ∧ 9 ≤ (9 : Nibble).toNat ∧ (0x01 : Byte) ≠ 0x00#8 := by decide

theorem witness_CrcupdTakesOneByte : State.reset.crc = 0x00#8 := rfl

theorem witness_StreamedChecksumIsTheFunction :
    let s : State := { State.reset with cmds := [some 0x0C00#16, some 0x0D31#16, some 0x0D32#16] }
    s.op = .idle ∧ noReset 3 s ∧ s.cmds = (expand (.crc8 [0x31, 0x32])).map (fun i => some (encode i)) :=
  ⟨rfl, noReset_of_no_list 3 rfl, by decide⟩

theorem witness_CrcbufChecksBufferPrefix : (9 : Nibble).toNat ≤ 9 ∧ 10 ≤ (10 : Nibble).toNat := by decide

theorem witness_AppendedChecksumGivesZero :
    memRead 7 { State.reset with buf := exampleBuf } =
      crc8 ([0, 1, 2, 3, 4, 5, 6].map fun i : BufIdx => memRead i { State.reset with buf := exampleBuf }) ∧
    memRead 8 { State.reset with buf := exampleBuf } =
      crc8 ([0, 1, 2, 3, 4, 5, 6, 7].map fun i : BufIdx => memRead i { State.reset with buf := exampleBuf }) ∧
    ∀ i : BufIdx, memRead i State.reset = 0x00#8 := by
  decide +kernel

/-! ### Witnesses: the busy tick -/

theorem witness_PrimitiveTicksSampleOnce :
    (∀ s ∈ [inside .reset 0 0 565 true, inside .reset 0 0 999 true],
      s.op = .reset ∧ rstAt 0 s = false ∧ s.t < 1000) ∧
    (∀ s ∈ [inside .rdbit 0 0 10 true, inside .rdbit 0 0 74 true],
      s.op = .rdbit ∧ rstAt 0 s = false ∧ s.t < 75) ∧
    (∀ s ∈ [inside .wr0 0 0 74 true, inside .wr1 0 0 74 true],
      (s.op = .wr0 ∨ s.op = .wr1) ∧ rstAt 0 s = false ∧ s.t < 75) := by decide

theorem witness_ByteReadSampleShiftsIn :
    (plan (inside .rdrom 8 7 10 true).op)[(inside .rdrom 8 7 10 true).byteIdx]? = some (.rb 7) ∧
    isWriteItem (.rb 7) = false ∧ rstAt 0 (inside .rdrom 8 7 10 true) = false := by decide

theorem witness_SlotTicksInsideAByte :
    (plan (inside .wrbyte 0 6 74 true).op)[(inside .wrbyte 0 6 74 true).byteIdx]? = some .wi ∧
    (plan (inside .rdbyte 0 0 73 true).op)[(inside .rdbyte 0 0 73 true).byteIdx]? = some .rd ∧
    rstAt 0 (inside .wrbyte 0 6 74 true) = false ∧ rstAt 0 (inside .rdbyte 0 0 73 true) = false := by decide

/-- A byte that another follows, a last read byte of each kind, and a last write byte. -/
theorem witness_SlotEndCompletesAByte :
    (∀ p ∈ [(inside .wrscr 0 7 74 true, Item.wc 0x4E), (inside .rdscr 0 7 74 true, Item.wc 0xBE),
        (inside .rdscr 9 7 74 true, Item.rb 8), (inside .rdbyte 0 7 74 true, Item.rd),
        (inside .wrscr 3 7 74 true, Item.wb 2)],
      Inv p.1 ∧ (plan p.1.op)[p.1.byteIdx]? = some p.2 ∧ rstAt 0 p.1 = false ∧ p.1.t = 74 ∧ p.1.bitIdx = 7) ∧
    (plan .wrscr)[1]? = some (.wb 0) ∧ (plan .rdscr)[1]? = some (.rb 0) ∧
    nbytes .rdscr = 9 + 1 ∧ nbytes .rdbyte = 0 + 1 ∧ nbytes .wrscr = 3 + 1 := by decide

/-! ### Witnesses: who writes what -/

theorem witness_PresWrittenByResetOnly : ∃ t, step (inside .reset 0 0 565 false) = .next t ∧
    t.pres ≠ (inside .reset 0 0 565 false).pres ∧ rstAt 0 (inside .reset 0 0 565 false) = false :=
  ⟨_, rfl, by decide, rfl⟩

theorem witness_RbitWrittenByRdbitOnly : ∃ t, step (inside .rdbit 0 0 10 true) = .next t ∧
    t.rbit ≠ (inside .rdbit 0 0 10 true).rbit ∧ rstAt 0 (inside .rdbit 0 0 10 true) = false :=
  ⟨_, rfl, by decide, rfl⟩

theorem witness_DataWrittenByRdbyteAndLdbufOnly :
    (∃ t, Inv { inside .rdbyte 0 7 74 true with sh := 0xC3 } ∧
      step { inside .rdbyte 0 7 74 true with sh := 0xC3 } = .next t ∧ t.data ≠ 0x00) ∧
    lastTick (inside .rdbyte 0 7 74 true) = true ∧ rstAt 0 (inside .rdbyte 0 7 74 true) = false ∧
    accepts (.ldbuf 8) (onPort 0x2800) ∧ (8 : Nibble).toNat = (8 : BufIdx).val :=
  ⟨⟨_, by decide, rfl, by decide⟩, by decide⟩

theorem witness_CrcWrittenByCrcCommandsOnly :
    (∃ t, step (onPort 0x0D01) = .next t ∧ t.crc ≠ (onPort 0x0D01).crc) ∧
    (∀ imm, ¬accepts (.crcupd imm) (onPort 0x3900)) ∧
    (∃ t, step { onPort 0x3900 with crc := 0x77 } = .next t ∧ t.crc ≠ 0x77) :=
  ⟨⟨_, rfl, by decide +kernel⟩, (by rintro imm ⟨-, -, h⟩; simp [offered, cmdAt, onPort] at h; revert h; decide +revert),
    ⟨_, rfl, by decide +kernel⟩⟩

theorem witness_ErrIsStickyUntilRst :
    (∃ t, rstAt 0 (onPort 0x0E00) = false ∧ step (onPort 0x0E00) = .next t) ∧
    ∃ t, rstAt 0 { onPort 0x0E00 with rsts := [true] } = true ∧
      step { onPort 0x0E00 with rsts := [true] } = .next t := ⟨⟨_, rfl, rfl⟩, _, rfl, rfl⟩

theorem witness_BufWrittenByThreeCommandsOnly :
    (∃ t, Inv (onPort 0x18EE) ∧ step (onPort 0x18EE) = .next t ∧ memRead 8 t ≠ memRead 8 (onPort 0x18EE)) ∧
    (∃ t, Inv { inside .rdrom 8 7 74 true with sh := 0xA5 } ∧
      step { inside .rdrom 8 7 74 true with sh := 0xA5 } = .next t ∧ memRead 7 t ≠ 0x00) ∧
    (∃ t, Inv { inside .rdscr 9 7 74 true with sh := 0x1C } ∧
      step { inside .rdscr 9 7 74 true with sh := 0x1C } = .next t ∧ memRead 8 t ≠ 0x00) ∧
    ((∀ i, i < 3 → Memory.get i [(3, 0x46)] = Memory.get i (inside .wrscr 2 7 74 true).buf) ∧
      (∃ t, step (inside .wrscr 2 7 74 true) = .next t) ∧
      (∀ idx, ¬accepts (.ldbuf idx) (inside .wrscr 2 7 74 true)) ∧
      ∀ len, ¬accepts (.crcbuf len) (inside .wrscr 2 7 74 true)) :=
  ⟨⟨_, by decide, rfl, by decide⟩, ⟨_, by decide, rfl, by decide⟩, ⟨_, by decide, rfl, by decide⟩, by decide, ⟨_, rfl⟩,
    fun _ h => absurd h.1 (by decide), fun _ h => absurd h.1 (by decide)⟩

theorem witness_ShifterKeptOutsideByteCommands :
    (primitiveOf? (inside .wr0 0 0 74 true).op ≠ none ∧ rstAt 0 (inside .wr0 0 0 74 true) = false ∧
      ∃ t, step (inside .wr0 0 0 74 true) = .next t) ∧
    (State.reset.op = .idle ∧ (∀ i, ¬accepts i State.reset) ∧ ∃ t, step State.reset = .next t) ∧
    (accepts .reset (onPort 0x0100) ∧ plan (busOp .reset) = [] ∧ ∃ t, step (onPort 0x0100) = .next t) :=
  ⟨⟨by decide, rfl, _, rfl⟩, ⟨rfl, fun i h => (nomatch (show none = some (Decoded.command i) from h.2.2)), _, rfl⟩,
    by decide, rfl, _, rfl⟩

theorem witness_OpChangesOnlyAtCommandEnds :
    (∃ t, Inv (onPort 0x0100) ∧ step (onPort 0x0100) = .next t ∧ t.op ≠ (onPort 0x0100).op) ∧
    accepts .reset (onPort 0x0100) ∧ rstAt 0 { inside .reset 0 0 299 true with rsts := [true] } = true ∧
    (∀ s ∈ [inside .reset 0 0 999 true, inside .rdscr 9 7 74 true],
      Inv s ∧ rstAt 0 s = false ∧ lastTick s = true) :=
  ⟨⟨_, by decide, rfl, by decide⟩, by decide, by decide, by decide⟩

/-! ### Witnesses: the invariant -/

theorem witness_EveryTickKeepsTheInvariant :
    ∃ t, Inv (inside .rdscr 9 7 74 true) ∧ step (inside .rdscr 9 7 74 true) = .next t := ⟨_, by decide, rfl⟩

theorem witness_HiddenCountersStayInRange :
    Inv (inside .rdscr 9 7 74 true) ∧ Inv (inside .reset 0 0 999 true) ∧ Inv State.reset := by decide

theorem witness_NoRunEverStops : Inv (inside .reset 0 0 999 true) := by decide

/-! ### Witnesses: whole commands -/

theorem witness_EveryCommandLastsItsDuration :
    (accepts .nop (onPort 0x0000) ∧ noReset 1 (onPort 0x0000)) ∧
    (accepts .rdscr (onPort 0x0A00) ∧ noReset 6001 (onPort 0x0A00)) :=
  ⟨⟨by decide, noReset_of_no_list _ rfl⟩, by decide, noReset_of_no_list _ rfl⟩

theorem witness_ResetCommandDetectsPresence : accepts .reset (onPort 0x0100) ∧ noReset 1001 (onPort 0x0100) :=
  ⟨by decide, noReset_of_no_list _ rfl⟩

theorem witness_RdbitCommandReadsOneBit : accepts .rdbit (onPort 0x0200) ∧ noReset 76 (onPort 0x0200) :=
  ⟨by decide, noReset_of_no_list _ rfl⟩

theorem witness_WriteSlotCommandsShapeTheLine :
    (noReset 76 (onPort 0x0400) ∧ accepts .wr1 (onPort 0x0400)) ∧
    (noReset 76 (onPort 0x0300) ∧ accepts .wr0 (onPort 0x0300)) :=
  ⟨⟨noReset_of_no_list _ rfl, by decide⟩, noReset_of_no_list _ rfl, by decide⟩

theorem witness_WrbyteCommandSendsItsByte :
    accepts (.wrbyte 0x33) (onPort 0x0533) ∧ noReset 601 (onPort 0x0533) :=
  ⟨by decide, noReset_of_no_list _ rfl⟩

theorem witness_RdbyteCommandReceivesAByte : accepts .rdbyte (onPort 0x0600) ∧ noReset 601 (onPort 0x0600) :=
  ⟨by decide, noReset_of_no_list _ rfl⟩

theorem witness_RdromCommandReadsEightBytes :
    Inv (onPort 0x0700) ∧ accepts .rdrom (onPort 0x0700) ∧ noReset 5401 (onPort 0x0700) :=
  ⟨by decide, by decide, noReset_of_no_list _ rfl⟩

theorem witness_SkipromAndConvtSendOneByte :
    (noReset 601 (onPort 0x0800) ∧ accepts .skiprom (onPort 0x0800)) ∧
    (noReset 601 (onPort 0x0900) ∧ accepts .convt (onPort 0x0900)) :=
  ⟨⟨noReset_of_no_list _ rfl, by decide⟩, noReset_of_no_list _ rfl, by decide⟩

theorem witness_RdscrCommandReadsNineBytes :
    Inv (onPort 0x0A00) ∧ accepts .rdscr (onPort 0x0A00) ∧ noReset 6001 (onPort 0x0A00) :=
  ⟨by decide, by decide, noReset_of_no_list _ rfl⟩

theorem witness_WrscrCommandSendsFourBytes : accepts .wrscr (onPort 0x0B00) ∧ noReset 2401 (onPort 0x0B00) :=
  ⟨by decide, noReset_of_no_list _ rfl⟩

/-! ### Witnesses: the closed line -/

theorem witness_ClosedRunIsAnOpenRun : ∃ t, lineTicks [true, false, true] (inside .rdbit 0 0 8 true) = .next t :=
  ⟨_, rfl⟩

theorem witness_PresenceOnTheClosedLine :
    accepts .reset (onPort 0x0100) ∧ noReset 1001 (onPort 0x0100) ∧ (List.replicate 1001 true).length = 1001 :=
  ⟨by decide, noReset_of_no_list _ rfl, List.length_replicate⟩

/-- WRBYTE 0xA5 and then RDBYTE, each offered when the port is ready. -/
def tripState : State := { State.reset with cmds := offerInOrder [.wrbyte 0xA5, .rdbyte] }

/-- What the slaves pull: slot `j` of the RDBYTE low exactly when bit `j` of 0xA5 is 0 (R198). -/
def tripPull (n : Nat) : Bool := !(0xA5 : Byte).getLsbD ((n - 602) / 75)

theorem witness_WriteThenReadBackRoundTrip :
    accepts (.wrbyte 0xA5) tripState ∧ noReset 1202 tripState ∧ cmdAt 601 tripState = some 0x0600#16 ∧
    ((List.range 1202).map tripPull).length = 1202 ∧
    (∀ j, j < 8 → ∃ u, ticks (1 + 75 * j + 30) tripState = .next u ∧ (0xA5 : Byte).getLsbD j = !owOe u) ∧
    ∀ j r, j < 8 → r ≤ 10 →
      ((List.range 1202).map tripPull).getD (602 + 75 * j + r) false = !(0xA5 : Byte).getLsbD j := by
  refine ⟨by decide, noReset_of_no_list _ rfl, by decide +kernel, by simp, fun j hj => ?_, fun j r hj hr => ?_⟩
  · let u : State := after tripState
    have hs : ticks 1 tripState = .next u := rfl
    obtain ⟨v, hv, -, -, -, -, ho⟩ := owOe_in_byte (s := u) (item := .wi) j 30 rfl rfl rfl (by omega) (by omega)
      (noReset_of_no_list _ rfl)
    refine ⟨v, by rw [Nat.add_assoc, ticks_add _ hs]; exact hv, ?_⟩
    rw [ho, show u.sh = 0xA5 from rfl]
    cases (0xA5 : Byte).getLsbD j <;> rfl
  · have hlt : 602 + 75 * j + r < 1202 := by omega
    have hq : (602 + 75 * j + r - 602) / 75 = j := by omega
    simp [List.getD_eq_getElem?_getD, hlt, tripPull, hq]

end Sys2Proof.Tests
end

/-! The state of the controller: the invariant through a tick, what a tick reads and what it writes. -/

namespace Sys2Proof.Machine

/-! ### What an accepted command does -/

theorem needZeroImm_eq_command {imm : Byte} {i j : Instr} (h : needZeroImm imm i = .command j) : i = j := by
  unfold needZeroImm at h
  split at h
  · exact Decoded.command.inj h
  · cases h

theorem decodeFormatS_wf {funct : Nibble} {imm : Byte} {i : Instr}
    (h : decodeFormatS funct imm = .command i) : i.wf = true := by
  unfold decodeFormatS at h
  split at h
  case h_6 => cases h; rfl
  case h_14 => cases h; rfl
  case h_15 => cases h
  all_goals cases needZeroImm_eq_command h; rfl

/-- The decoder answers well-formed commands only (spec/30_encoding.md R97, R100). -/
theorem decode_wf {w : Word} {i : Instr} (h : decode w = .command i) : i.wf = true := by
  unfold decode decodeFields at h
  split at h
  · exact decodeFormatS_wf h
  · split at h
    · next hx => cases h; exact hx
    · cases h
  · split at h
    · next hx => cases needZeroImm_eq_command h; exact hx
    · cases h
  · split at h
    · next hx => cases needZeroImm_eq_command h; exact hx
    · cases h
  · cases h

theorem wf_of_accepts {i : Instr} {s : State} (h : accepts i s) : i.wf = true := by
  obtain ⟨-, -, ho⟩ := h
  obtain ⟨w, -, hw⟩ := Option.map_eq_some_iff.mp ho
  exact decode_wf hw

theorem decode_encode_of_wf {i : Instr} (h : i.wf = true) : decode (encode i) = .command i := by
  cases i with
  | nop => exact Laws.RoundTrip.nop h
  | reset => exact Laws.RoundTrip.reset h
  | rdbit => exact Laws.RoundTrip.rdbit h
  | wr0 => exact Laws.RoundTrip.wr0 h
  | wr1 => exact Laws.RoundTrip.wr1 h
  | wrbyte imm => exact Laws.RoundTrip.wrbyte imm h
  | rdbyte => exact Laws.RoundTrip.rdbyte h
  | rdrom => exact Laws.RoundTrip.rdrom h
  | skiprom => exact Laws.RoundTrip.skiprom h
  | convt => exact Laws.RoundTrip.convt h
  | rdscr => exact Laws.RoundTrip.rdscr h
  | wrscr => exact Laws.RoundTrip.wrscr h
  | crcclr => exact Laws.RoundTrip.crcclr h
  | crcupd imm => exact Laws.RoundTrip.crcupd imm h
  | stbuf idx imm => exact Laws.RoundTrip.stbuf idx imm h
  | ldbuf idx => exact Laws.RoundTrip.ldbuf idx h
  | crcbuf len => exact Laws.RoundTrip.crcbuf len h

theorem bufIdx?_eq_some {idx : Nibble} {j : BufIdx} : bufIdx? idx = some j ↔ idx.toNat = j.val := by
  unfold bufIdx?
  split
  · rw [Option.some.injEq, Fin.ext_iff]
  · next h => simp only [reduceCtorEq, false_iff]; omega

theorem wf_eq_false_of_bufIdx?_eq_none {idx : Nibble} (h : bufIdx? idx = none) : idxLegal idx = false := by
  unfold bufIdx? at h
  split at h
  · cases h
  · simp only [idxLegal, decide_eq_false_iff_not]; omega

/-- The accept effects: what a command can make of the state `s` (spec/10_state.md R27). -/
inductive AcceptEffect (s : State) : Instr → State → Prop
  | nop : AcceptEffect s .nop s
  | crcclr : AcceptEffect s .crcclr (setCrc crcInit s)
  | crcupd (imm : Byte) : AcceptEffect s (.crcupd imm) (setCrc (crc8Byte s.crc imm) s)
  | crcbuf (len : Nibble) :
      AcceptEffect s (.crcbuf len) (setCrc (crc8 ((bufBytes s).take len.toNat)) s)
  | stbuf (idx : Nibble) (imm : Byte) (j : BufIdx) (hj : idx.toNat = j.val) :
      AcceptEffect s (.stbuf idx imm) (memWrite j imm s)
  | ldbuf (idx : Nibble) (j : BufIdx) (hj : idx.toNat = j.val) :
      AcceptEffect s (.ldbuf idx) { s with data := memRead j s }
  | bus (i : Instr) (imm : Option Byte) (hb : busOp i ≠ .idle) :
      AcceptEffect s i
        (loadSh ((plan (busOp i)).head?.bind (itemValue? imm s)) (seqTo (busOp i) 0 0 0 s))
  | outOfRange (i : Instr) (hi : i.wf = false) (hb : busOp i = .idle) :
      AcceptEffect s i { s with err := true }

/-- Every command has one of the accept effects. -/
theorem acceptEffect_of_exec {i : Instr} {s u : State} (h : exec i s = .next u) : AcceptEffect s i u := by
  cases i with
  | nop => cases h; exact .nop
  | crcclr => cases h; exact .crcclr
  | crcupd imm => cases h; exact .crcupd imm
  | crcbuf len =>
    simp only [exec, execCrcbuf, bufPrefix?] at h
    by_cases hl : len.toNat ≤ 9
    · rw [if_pos hl] at h; cases h; exact .crcbuf len
    · rw [if_neg hl] at h; cases h; exact .outOfRange _ (by simpa [Instr.wf, lenLegal] using hl) rfl
  | stbuf idx imm =>
    simp only [exec, execStbuf] at h
    cases hj : bufIdx? idx with
    | some j => rw [hj] at h; cases h; exact .stbuf idx imm j (bufIdx?_eq_some.mp hj)
    | none => rw [hj] at h; cases h; exact .outOfRange _ (wf_eq_false_of_bufIdx?_eq_none hj) rfl
  | ldbuf idx =>
    simp only [exec, execLdbuf] at h
    cases hj : bufIdx? idx with
    | some j => rw [hj] at h; cases h; exact .ldbuf idx j (bufIdx?_eq_some.mp hj)
    | none => rw [hj] at h; cases h; exact .outOfRange _ (wf_eq_false_of_bufIdx?_eq_none hj) rfl
  | wrbyte imm => cases h; exact .bus (.wrbyte imm) (some imm) nofun
  | reset => cases h; exact .bus .reset none nofun
  | rdbit => cases h; exact .bus .rdbit none nofun
  | wr0 => cases h; exact .bus .wr0 none nofun
  | wr1 => cases h; exact .bus .wr1 none nofun
  | rdbyte => cases h; exact .bus .rdbyte none nofun
  | rdrom => cases h; exact .bus .rdrom none nofun
  | skiprom => cases h; exact .bus .skiprom none nofun
  | convt => cases h; exact .bus .convt none nofun
  | rdscr => cases h; exact .bus .rdscr none nofun
  | wrscr => cases h; exact .bus .wrscr none nofun

/-- An idle controller that accepts a command holds `OP` of that command afterwards. -/
theorem AcceptEffect.op_eq {i : Instr} {s u : State} (h : AcceptEffect s i u) (hi : s.op = .idle) :
    u.op = busOp i := by
  cases h with
  | nop => exact hi
  | crcclr => exact hi
  | crcupd imm => exact hi
  | crcbuf len => exact hi
  | stbuf idx imm j hj => exact hi
  | ldbuf idx j hj => exact hi
  | bus _ imm hb => rfl
  | outOfRange _ hw hb => exact hi.trans hb.symm

/-- Only a byte command loads the shifter when it is accepted. -/
theorem AcceptEffect.sh_eq {i : Instr} {s u : State} (h : AcceptEffect s i u) (hp : plan (busOp i) = []) :
    u.sh = s.sh := by
  cases h with
  | bus _ imm hb => rw [hp]; rfl
  | _ => rfl

/-- Of the commands the decoder gives, none sets `ERR` when it is accepted. -/
theorem AcceptEffect.err_eq {i : Instr} {s u : State} (h : AcceptEffect s i u) (hw : i.wf = true) :
    u.err = s.err := by
  cases h with
  | outOfRange _ hi hb => rw [hi] at hw; cases hw
  | _ => rfl

/-- No command writes `PRES` when it is accepted. -/
theorem AcceptEffect.pres_eq {i : Instr} {s u : State} (h : AcceptEffect s i u) : u.pres = s.pres := by
  cases h <;> rfl

/-- No command writes `RBIT` when it is accepted. -/
theorem AcceptEffect.rbit_eq {i : Instr} {s u : State} (h : AcceptEffect s i u) : u.rbit = s.rbit := by
  cases h <;> rfl

/-- Only LDBUF writes `DATA` when it is accepted. -/
theorem AcceptEffect.data_eq {i : Instr} {s u : State} (h : AcceptEffect s i u) (hd : u.data ≠ s.data) :
    ∃ (idx : Nibble) (j : BufIdx), i = .ldbuf idx ∧ idx.toNat = j.val ∧ u.data = memRead j s := by
  cases h with
  | ldbuf idx j hj => exact ⟨idx, j, rfl, hj, rfl⟩
  | _ => exact absurd rfl hd

/-- Only the three CRC commands write `CRC` when they are accepted. -/
theorem AcceptEffect.crc_eq {i : Instr} {s u : State} (h : AcceptEffect s i u) (hc : u.crc ≠ s.crc) :
    i = .crcclr ∨ (∃ imm, i = .crcupd imm) ∨ ∃ len, i = .crcbuf len := by
  cases h with
  | crcclr => exact .inl rfl
  | crcupd imm => exact .inr (.inl ⟨imm, rfl⟩)
  | crcbuf len => exact .inr (.inr ⟨len, rfl⟩)
  | _ => exact absurd rfl hc

/-- Only STBUF writes the buffer when it is accepted. -/
theorem AcceptEffect.buf_eq {i : Instr} {s u : State} (h : AcceptEffect s i u) :
    u.buf = s.buf ∨ ∃ (idx : Nibble) (imm : Byte) (j : BufIdx),
      i = .stbuf idx imm ∧ idx.toNat = j.val ∧ u.buf = Memory.put j.val imm s.buf := by
  cases h with
  | stbuf idx imm j hj => exact .inr ⟨idx, imm, j, rfl, hj, rfl⟩
  | _ => exact .inl rfl

/-! ### The items of the byte plans -/

theorem rd_of_plan {o : Op} {n : Nat} (h : (plan o)[n]? = some .rd) : o = .rdbyte ∧ n = 0 := by
  have hm := List.mem_of_getElem? h
  have ho : o = .rdbyte := by revert hm; cases o <;> simp [plan]
  subst ho
  have hn : n < nbytes .rdbyte := (List.getElem?_eq_some_iff.mp h).1
  exact ⟨rfl, Nat.lt_one_iff.mp hn⟩

theorem wb_of_plan {o : Op} {n : Nat} {i : BufIdx} (h : (plan o)[n]? = some (.wb i)) :
    o = .wrscr ∧ i.val < 3 := by
  have hm := List.mem_of_getElem? h
  have ho : o = .wrscr := by revert hm; cases o <;> simp [plan]
  subst ho
  have hi : i = 0 ∨ i = 1 ∨ i = 2 := by simpa [plan] using hm
  refine ⟨rfl, ?_⟩
  rcases hi with rfl | rfl | rfl <;> decide

/-- The read items of RDROM and RDSCR stand in index order. -/
theorem rb_of_range {m n : Nat} {i : BufIdx} (hm : m ≤ 9)
    (h : ((List.range m).map fun j => Item.rb (Fin.ofNat 9 j))[n]? = some (.rb i)) : i.val < m ∧ n = i.val := by
  have hn : n < m ∧ Fin.ofNat 9 n = i := by simpa [List.getElem?_eq_some_iff] using h
  obtain ⟨hlt, rfl⟩ := hn
  have hv : (Fin.ofNat 9 n).val = n := Nat.mod_eq_of_lt (by omega)
  exact ⟨by omega, hv.symm⟩

theorem rb_of_plan {o : Op} {n : Nat} {i : BufIdx} (h : (plan o)[n]? = some (.rb i)) :
    ((o = .rdrom ∧ i.val < 8) ∨ o = .rdscr) ∧ n = i.val + 1 := by
  have hm := List.mem_of_getElem? h
  have ho : o = .rdrom ∨ o = .rdscr := by revert hm; cases o <;> simp [plan]
  obtain ⟨n, rfl⟩ : ∃ k, n = k + 1 := Nat.exists_eq_add_one_of_ne_zero fun hn => by
    subst hn
    rcases ho with rfl | rfl <;> cases h
  rcases ho with rfl | rfl
  · obtain ⟨hlt, rfl⟩ := rb_of_range (by decide : 8 ≤ 9) h
    exact ⟨.inl ⟨rfl, hlt⟩, rfl⟩
  · obtain ⟨-, rfl⟩ := rb_of_range (by decide : 9 ≤ 9) h
    exact ⟨.inr rfl, rfl⟩

theorem nbytes_le (o : Op) : nbytes o ≤ 10 := by cases o <;> decide

/-! ### The invariant through a tick -/

theorem range_of_seqLegal_primitive {s : State} {k : Prim} (h : seqLegal s = true)
    (hp : primitiveOf? s.op = some k) : s.byteIdx = 0 ∧ s.bitIdx = 0 ∧ s.t < primLen k := by
  simpa [seqLegal, hp, and_assoc] using h

theorem range_of_seqLegal_item {s : State} {item : Item} (h : seqLegal s = true)
    (hi : itemNow? s = some item) : s.byteIdx < nbytes s.op ∧ s.bitIdx < 8 ∧ s.t < 75 := by
  show _ ∧ _ ∧ s.t < tSlot
  simpa [seqLegal, primitiveOf?_of_item hi, op_ne_idle_of_item hi, and_assoc] using h

/-- Every command starts at a legal position. -/
theorem seqLegal_start (o : Op) (s : State) : seqLegal (seqTo o 0 0 0 s) = true := by cases o <;> rfl

theorem AcceptEffect.inv {i : Instr} {s u : State} (h : AcceptEffect s i u) (hs : Inv s) : Inv u := by
  obtain ⟨hseq, hbuf⟩ := hs
  cases h with
  | stbuf idx imm j hj => exact ⟨hseq, memWrite_wf j imm hbuf⟩
  | bus _ imm hb => exact ⟨seqLegal_start (busOp i) s, hbuf⟩
  | _ => exact ⟨hseq, hbuf⟩

/-- A busy tick keeps the invariant: inside a primitive it counts, at the end of a slot it goes on to the next
slot or byte of the plan, and at the end of the command it comes to rest. -/
theorem busy_tick_inv {s : State} {k : Prim} (hk : kind? s = some k) (hs : Inv s) :
    Inv (moveOn k (sense k s)) := by
  obtain ⟨hseq, hbuf⟩ := hs
  rcases busy_tick_cases hk with ⟨hp, he⟩ | ⟨item, hi, -, rfl, hcase⟩
  · obtain ⟨hy, hb, ht⟩ := range_of_seqLegal_primitive hseq hp
    rw [he]
    refine ⟨?_, hbuf⟩
    by_cases hlt : s.t < primLen k - 1
    · simp only [if_pos hlt]
      exact seqLegal_of_primitive hp hy hb (by show s.t + 1 < primLen k; omega)
    · simp only [if_neg hlt]
      exact seqLegal_of_idle rfl hy hb rfl
  · obtain ⟨-, hb, ht⟩ := range_of_seqLegal_item hseq hi
    rcases hcase with ⟨hlt, he⟩ | ⟨-, hlt, he⟩ | ⟨-, -, next, hn, he⟩ | ⟨-, -, -, he⟩ <;> rw [he]
    · exact ⟨seqLegal_of_item (item := item) hi hb (by show s.t + 1 < 75; omega), hbuf⟩
    · exact ⟨seqLegal_of_item (item := item) hi (by show s.bitIdx + 1 < 8; omega) (by decide : 0 < 75), hbuf⟩
    · exact ⟨seqLegal_of_item (item := next) hn (by decide : 0 < 8) (by decide : 0 < 75),
        bufAfterByte_wf item hbuf⟩
    · exact ⟨seqLegal_of_idle rfl rfl rfl rfl, bufAfterByte_wf item hbuf⟩

/-- Settles O45: each of the five cases of a tick keeps the invariant. -/
theorem everyTickKeepsTheInvariant : Obligations.EveryTickKeepsTheInvariant := by
  intro s t hs h
  rcases step_cases h with
    ⟨-, rfl⟩ | ⟨-, -, -, rfl⟩ | ⟨-, -, -, rfl⟩ | ⟨i, u, -, hu, rfl⟩ | ⟨-, -, k, hk, rfl⟩
  · exact ⟨seqLegal_of_idle rfl rfl rfl rfl, Memory.wf_nil⟩
  · exact hs
  · exact hs
  · exact (acceptEffect_of_exec hu).inv hs
  · exact busy_tick_inv hk hs

/-- Settles O44: the reset state is idle, with an empty buffer. -/
theorem resetMeetsTheInvariant : Obligations.ResetMeetsTheInvariant :=
  ⟨seqLegal_of_idle rfl rfl rfl rfl, Memory.wf_nil⟩

theorem primLen_le (k : Prim) : primLen k ≤ 1000 := by cases k <;> decide

theorem primLen_of_op_ne_reset {o : Op} {k : Prim} (hp : primitiveOf? o = some k) (ho : o ≠ .reset) :
    primLen k = 75 := by
  cases o with
  | reset => exact absurd rfl ho
  | rdbit => cases hp; rfl
  | wr0 => cases hp; rfl
  | wr1 => cases hp; rfl
  | _ => cases hp

/-- Settles O46: the ranges at each of the three kinds of legal position. -/
theorem hiddenCountersStayInRange : Obligations.HiddenCountersStayInRange := by
  intro s hs
  have hn := nbytes_le s.op
  rcases seqLegal_cases hs.1 with ⟨-, hy, hb, ht⟩ | ⟨k, hk, hy, hb, ht⟩ | ⟨item, hi, hy, hb, ht⟩
  · exact ⟨by omega, by omega, by omega, fun _ => ⟨hy, hb, ht⟩, fun _ => ⟨hy, hb⟩, fun _ => by omega⟩
  · have hlen := primLen_le k
    refine ⟨by omega, by omega, by omega, fun ho => absurd ho (op_ne_idle_of_primitive hk),
      fun _ => ⟨hy, hb⟩, fun ho => ?_⟩
    have := primLen_of_op_ne_reset hk ho
    omega
  · exact ⟨by omega, by omega, by omega, fun ho => absurd ho (op_ne_idle_of_item hi),
      fun hp => absurd (primitiveOf?_of_item hi) hp, fun _ => by omega⟩

/-! ### What a tick reads of the input ports -/

/-- The state with other values on the input ports `cmd`, `rd_sel` and `ow_in`. -/
def withInputs (cs : List (Option Word)) (rs : List (BitVec 2)) (ls : List Bool) (s : State) : State :=
  { s with cmds := cs, rdSels := rs, levels := ls }

/-- A command reads no input port when it is accepted, but for the word it is. -/
theorem exec_withInputs (cs : List (Option Word)) (rs : List (BitVec 2)) (ls : List Bool) (i : Instr)
    (s : State) :
    exec i (withInputs cs rs ls s) = mapNext (withInputs cs rs ls) (exec i s) := by
  cases i with
  | stbuf idx imm => simp only [exec, execStbuf]; split <;> rfl
  | ldbuf idx => simp only [exec, execLdbuf]; split <;> rfl
  | crcbuf len =>
    simp only [exec, execCrcbuf, bufPrefix?]
    by_cases hl : len.toNat ≤ 9
    · rw [if_pos hl, if_pos hl]; rfl
    · rw [if_neg hl, if_neg hl]; rfl
  | _ => rfl

/-- A busy tick reads no input port but `ow_in`, and that in a sample tick only. -/
theorem busy_tick_withInputs {cs : List (Option Word)} {rs : List (BitVec 2)} {ls : List Bool} {s : State}
    {k : Prim} (hk : kind? s = some k)
    (hl : sampleOffset? k = some s.t → owInAt 0 (withInputs cs rs ls s) = owInAt 0 s) :
    moveOn k (sense k (withInputs cs rs ls s)) = withInputs cs rs ls (moveOn k (sense k s)) := by
  rcases busy_tick_cases hk with ⟨hp, he⟩ | ⟨item, hi, -, rfl, hcase⟩
  · have hpres : (if k = .reset ∧ s.t = 565 then !owInAt 0 (withInputs cs rs ls s) else s.pres) =
        if k = .reset ∧ s.t = 565 then !owInAt 0 s else s.pres :=
      ite_congr rfl (fun h => by rw [hl (by rw [h.1, h.2]; rfl)]) fun _ => rfl
    have hrbit : (if k = .rd ∧ s.t = 10 then owInAt 0 (withInputs cs rs ls s) else s.rbit) =
        if k = .rd ∧ s.t = 10 then owInAt 0 s else s.rbit :=
      ite_congr rfl (fun h => hl (by rw [h.1, h.2]; rfl)) fun _ => rfl
    rw [he, primitive_tick (s := withInputs cs rs ls s) hp, ← hpres, ← hrbit]
    rfl
  · rcases hcase with ⟨ht, he⟩ | ⟨ht, hb, he⟩ | ⟨ht, hb, next, hn, he⟩ | ⟨ht, hb, hn, he⟩ <;> rw [he]
    · have hsh : (if isWriteItem item = false ∧ s.t = 10 then
            shiftIn s.sh (owInAt 0 (withInputs cs rs ls s)) else s.sh) =
          if isWriteItem item = false ∧ s.t = 10 then shiftIn s.sh (owInAt 0 s) else s.sh :=
        ite_congr rfl (fun h => by rw [hl (by rw [slotPrim_read h.1, h.2]; rfl)]) fun _ => rfl
      rw [← hsh]
      exact slot_tick_inside (s := withInputs cs rs ls s) hi ht
    · exact slot_tick_last (s := withInputs cs rs ls s) hi ht hb
    · refine (byte_tick_last_next (s := withInputs cs rs ls s) hi ht hb hn).trans ?_
      rw [itemValue?_congr (u := withInputs cs rs ls s) rfl]
      cases item <;> rfl
    · refine (byte_tick_last_end (s := withInputs cs rs ls s) hi ht hb hn).trans ?_
      cases item <;> rfl

/-- A busy tick leaves the input streams to `endTick`. -/
theorem busy_tick_inputs {s : State} {k : Prim} (hk : kind? s = some k) :
    (moveOn k (sense k s)).cmds = s.cmds ∧ (moveOn k (sense k s)).rdSels = s.rdSels ∧
      (moveOn k (sense k s)).levels = s.levels := by
  rcases busy_tick_cases hk with ⟨-, he⟩ | ⟨item, -, -, rfl, ⟨-, he⟩ | ⟨-, -, he⟩ | ⟨-, -, next, -, he⟩ |
    ⟨-, -, -, he⟩⟩ <;> rw [he] <;> exact ⟨rfl, rfl, rfl⟩

/-- What a tick depends on: of the ports, the command word when idle and the line in a sample tick. -/
theorem step_withInputs {cs : List (Option Word)} {rs : List (BitVec 2)} {ls : List Bool} {s : State}
    (hcs : cs.tail = s.cmds.tail) (hrs : rs.tail = s.rdSels.tail) (hls : ls.tail = s.levels.tail)
    (hc : s.op = .idle → cmdAt 0 (withInputs cs rs ls s) = cmdAt 0 s)
    (hl : ∀ k, kind? s = some k → sampleOffset? k = some s.t →
      owInAt 0 (withInputs cs rs ls s) = owInAt 0 s) :
    step (withInputs cs rs ls s) = step s := by
  have hend : ∀ u : State, u.cmds = s.cmds → u.rdSels = s.rdSels → u.levels = s.levels →
      endTick (withInputs cs rs ls u) = endTick u := fun u h1 h2 h3 => by
    simp [endTick, withInputs, h1, h2, h3, hcs, hrs, hls]
  by_cases hr : rstAt 0 s = true
  · rw [step_of_rst hr, step_of_rst (s := withInputs cs rs ls s) hr]
    exact congrArg _ (hend (resetRegs s) rfl rfl rfl)
  have hr' : rstAt 0 s = false := by simpa using hr
  by_cases hi : s.op = .idle
  · have ho : offered (withInputs cs rs ls s) = offered s := congrArg (Option.map decode) (hc hi)
    cases hd : offered s with
    | none =>
      rw [step_of_idle hr' hi hd, step_of_idle (s := withInputs cs rs ls s) hr' hi (ho.trans hd)]
      exact congrArg _ (hend s rfl rfl rfl)
    | some d =>
      cases d with
      | illegal c =>
        rw [step_of_illegal hr' hi hd, step_of_illegal (s := withInputs cs rs ls s) hr' hi (ho.trans hd)]
        exact congrArg _ (hend { s with err := true } rfl rfl rfl)
      | command i =>
        obtain ⟨u, hu⟩ := exec_next i s
        obtain ⟨-, -, -, h1, h2, h3, -⟩ := exec_keeps hu
        rw [step_of_accept ⟨hi, hr', hd⟩,
          step_of_accept (s := withInputs cs rs ls s) ⟨hi, hr', ho.trans hd⟩, exec_withInputs, hu]
        exact congrArg Host.Outcome.next (hend u h1 h2 h3)
  · cases hk : kind? s with
    | none => rw [step_of_no_item hr' hi hk, step_of_no_item (s := withInputs cs rs ls s) hr' hi hk]
    | some k =>
      obtain ⟨h1, h2, h3⟩ := busy_tick_inputs hk
      rw [step_of_busy hr' hi hk, step_of_busy (s := withInputs cs rs ls s) hr' hi hk,
        busy_tick_withInputs hk (hl k hk)]
      exact congrArg Host.Outcome.next (hend _ h1 h2 h3)

/-- Settles O13: a tick reads the command port when idle only. -/
theorem busyTickIgnoresOfferedWord : Obligations.BusyTickIgnoresOfferedWord := by
  intro s c hb
  refine ⟨by simp [cmdReady, hb], ?_⟩
  exact step_withInputs (cs := c :: s.cmds.tail) rfl rfl rfl (fun hi => absurd hi hb) fun _ _ _ => rfl

/-- Settles O16: the port by its code, and no step reads the code. -/
theorem readPortSelectsAndHasNoEffect : Obligations.ReadPortSelectsAndHasNoEffect := by
  intro s sel
  refine ⟨rfl, rfl, rfl, rfl, rfl, ?_⟩
  exact step_withInputs (rs := sel :: s.rdSels.tail) rfl rfl rfl (fun _ => rfl) fun _ _ _ => rfl

theorem slotPrim_ne_reset (item : Item) (sh : Byte) : slotPrim item sh ≠ .reset := by
  intro h
  have := primLen_slotPrim item sh
  rw [h] at this
  cases this

theorem op_eq_reset_of_primitive {s : State} (hp : primitiveOf? s.op = some .reset) : s.op = .reset := by
  revert hp
  cases s.op <;> simp [primitiveOf?]

theorem op_eq_rdbit_of_primitive {s : State} (hp : primitiveOf? s.op = some .rd) : s.op = .rdbit := by
  revert hp
  cases s.op <;> simp [primitiveOf?]

theorem kind?_eq_reset_iff {s : State} : kind? s = some .reset ↔ s.op = .reset := by
  refine ⟨fun h => ?_, fun h => by simp [kind?, h, primitiveOf?]⟩
  rcases kind?_cases h with hp | ⟨item, -, hs⟩
  · exact op_eq_reset_of_primitive hp
  · exact absurd hs.symm (slotPrim_ne_reset item s.sh)

/-- Where the tick of a command `o` that samples the line leaves the level: RESET in `PRES`, inverted, RDBIT in
`RBIT`, and a read slot of a byte in the top bit of the shifter (spec/10_state.md R44). -/
def sampledLevel (o : Op) (s : State) : Bool :=
  if o = .reset then !s.pres else if o = .rdbit then s.rbit else s.sh.getLsbD 7

theorem sampledLevel_of_sample_tick {s : State} {k : Prim} (hk : kind? s = some k)
    (hq : sampleOffset? k = some s.t) : sampledLevel s.op (moveOn k (sense k s)) = owInAt 0 s := by
  rcases kind?_cases hk with hp | ⟨item, hi, rfl⟩
  · rw [primitive_tick hp]
    cases k with
    | reset =>
      have ht : s.t = 565 := (Option.some.inj hq).symm
      simp [sampledLevel, kind?_eq_reset_iff.mp hk, ht]
    | rd =>
      have ht : s.t = 10 := (Option.some.inj hq).symm
      simp [sampledLevel, op_eq_rdbit_of_primitive hp, ht]
    | w1 => cases hq
    | w0 => cases hq
  · have hw : isWriteItem item = false := by
      cases hw : isWriteItem item with
      | true => rw [sampleOffset?_slotPrim_write hw] at hq; cases hq
      | false => rfl
    have ht : s.t = 10 := by rw [slotPrim_read hw] at hq; exact (Option.some.inj hq).symm
    have hreset : s.op ≠ .reset := fun ho => by
      have hp := primitiveOf?_of_item hi
      rw [ho] at hp
      cases hp
    rw [slot_tick_inside hi (by omega), sampledLevel, if_neg hreset, if_neg (op_ne_rdbit_of_item hi),
      if_pos ⟨hw, ht⟩]
    exact shiftIn_top s.sh (owInAt 0 s)

/-- Settles O14: outside the sample ticks the line is not read, and in them the level is left in the state. -/
theorem lineIsReadInSampleTicksOnly : Obligations.LineIsReadInSampleTicksOnly := by
  refine ⟨fun s level hreset hrd => ?_, fun s hr hb hs => ?_⟩
  · refine step_withInputs (ls := level :: s.levels.tail) rfl rfl rfl (fun _ => rfl) fun k hk hq => ?_
    cases k with
    | reset => exact absurd ⟨kind?_eq_reset_iff.mp hk, (Option.some.inj hq).symm⟩ hreset
    | rd => exact absurd ⟨hk, (Option.some.inj hq).symm⟩ hrd
    | w1 => cases hq
    | w0 => cases hq
  · obtain ⟨k, hk, hq⟩ : ∃ k, kind? s = some k ∧ sampleOffset? k = some s.t := by
      rcases hs with ⟨ho, ht⟩ | ⟨hk, ht⟩
      · exact ⟨.reset, kind?_eq_reset_iff.mpr ho, by rw [ht]; rfl⟩
      · exact ⟨.rd, hk, by rw [ht]; rfl⟩
    have hstep : ∀ level : Bool, ∃ u, step { s with levels := level :: s.levels.tail } = .next u ∧
        sampledLevel s.op u = level := fun level =>
      ⟨_, step_of_busy hr hb hk,
        sampledLevel_of_sample_tick (s := { s with levels := level :: s.levels.tail }) hk hq⟩
    obtain ⟨u, hu, hhigh⟩ := hstep true
    obtain ⟨v, hv, hlow⟩ := hstep false
    rw [hu, hv]
    intro heq
    cases heq
    rw [hhigh] at hlow
    cases hlow

/-! ### The output and the ticks of the primitives -/

theorem owOe_of_kind {s : State} {k : Prim} (hk : kind? s = some k) : owOe s = decide (s.t < lowLen k) := by
  rw [owOe, hk]

theorem lowLen_pos (k : Prim) : 0 < lowLen k := by cases k <;> decide

theorem lowLen_lt_primLen (k : Prim) : lowLen k < primLen k := by cases k <;> decide

/-- Settles O18: a primitive is low for its first `lowLen` offsets, which are neither none nor all but the
last. -/
theorem directionOutputFollowsOffset : Obligations.DirectionOutputFollowsOffset := by
  refine ⟨fun s hi => by simp [owOe, kind?, primitiveOf?, itemNow?, plan, hi], fun s _ hk => owOe_of_kind hk,
    fun s _ hk => owOe_of_kind hk, fun s _ hk => owOe_of_kind hk, fun s _ hk => owOe_of_kind hk,
    fun s hs hb => ?_⟩
  obtain ⟨k, hk, -⟩ := kind?_of_seqLegal hs.1 hb
  have hpos := lowLen_pos k
  have hlt := lowLen_lt_primLen k
  refine ⟨k, hk, fun ht => ?_, fun ht => ?_⟩
  · rw [owOe_of_kind hk, decide_eq_true_eq]; omega
  · rw [owOe_of_kind hk, decide_eq_false_iff_not]; omega

/-- The tick of a primitive command whose primitive ends at offset `n`. -/
theorem step_of_primitive {s : State} {k : Prim} {n : Nat} (hp : primitiveOf? s.op = some k)
    (hn : primLen k = n + 1) (hr : rstAt 0 s = false) : step s = .next (endTick { s with
      pres := if k = .reset ∧ s.t = 565 then !owInAt 0 s else s.pres
      rbit := if k = .rd ∧ s.t = 10 then owInAt 0 s else s.rbit
      t := if s.t < n then s.t + 1 else 0
      op := if s.t < n then s.op else .idle }) := by
  rw [step_of_busy hr (op_ne_idle_of_primitive hp) (kind?_of_primitive hp), primitive_tick hp, hn,
    Nat.add_sub_cancel]

/-- Settles O32: the tick of a primitive command, for each of the four. -/
theorem primitiveTicksSampleOnce : Obligations.PrimitiveTicksSampleOnce := by
  refine ⟨fun s ho hr _ => ?_, fun s ho hr _ => ?_, fun s ho hr _ => ?_⟩
  · rw [step_of_primitive (k := .reset) (n := 999) (by rw [ho]; rfl) rfl hr]
    simp [ho]
  · rw [step_of_primitive (k := .rd) (n := 74) (by rw [ho]; rfl) rfl hr]
    simp [ho]
  · rcases ho with ho | ho
    · rw [step_of_primitive (k := .w0) (n := 74) (by rw [ho]; rfl) rfl hr]
      simp
    · rw [step_of_primitive (k := .w1) (n := 74) (by rw [ho]; rfl) rfl hr]
      simp

theorem step_of_item {s : State} {item : Item} (hi : itemNow? s = some item) (hr : rstAt 0 s = false) :
    step s = .next (endTick (moveOn (slotPrim item s.sh) (sense (slotPrim item s.sh) s))) :=
  step_of_busy hr (op_ne_idle_of_item hi) (kind?_of_item hi)

/-- Settles O34: the two kinds of tick inside a byte that store nothing. -/
theorem slotTicksInsideAByte : Obligations.SlotTicksInsideAByte := by
  intro s item hi hr
  refine ⟨fun ht hns => ?_, fun ht hb => ?_⟩
  · have hno : ¬(isWriteItem item = false ∧ s.t = 10) := fun ⟨hw, h10⟩ =>
      hns.elim (fun h => by rw [hw] at h; cases h) fun h => h h10
    rw [step_of_item hi hr, slot_tick_inside hi ht, if_neg hno]
  · rw [step_of_item hi hr, slot_tick_last hi (by omega) hb]
    rfl

/-! ### The registers that steer nothing -/

/-- The six registers that hold results: no tick takes its course from one of them, but that LDBUF, CRCBUF and
WRSCR read the buffer and CRCUPD reads `CRC` (`step_withResults`). -/
structure Results where
  pres : Bool
  rbit : Bool
  err : Bool
  data : Byte
  crc : Byte
  buf : Memory

def results (s : State) : Results := ⟨s.pres, s.rbit, s.err, s.data, s.crc, s.buf⟩

/-- The state with other values in the result registers. -/
def withResults (x : Results) (s : State) : State :=
  { s with pres := x.pres, rbit := x.rbit, err := x.err, data := x.data, crc := x.crc, buf := x.buf }

/-- The tick that takes `s` to `t` takes the result registers `x` to `y`, and what each of them becomes depends
on that register alone, but for LDBUF and CRCBUF, which read the buffer, and on nothing at all where a CRC
command other than CRCUPD writes `CRC`. -/
structure Results.Follow (s t : State) (x y : Results) : Prop where
  pres : x.pres = s.pres → y.pres = t.pres
  rbit : x.rbit = s.rbit → y.rbit = t.rbit
  err : x.err = s.err → y.err = t.err
  buf : x.buf = s.buf → y.buf = t.buf
  data : (x.buf = s.buf ∨ ∀ idx, ¬accepts (.ldbuf idx) s) → x.data = s.data → y.data = t.data
  crc : (x.buf = s.buf ∨ ∀ len, ¬accepts (.crcbuf len) s) → x.crc = s.crc → y.crc = t.crc
  crcFresh : x.buf = s.buf → (∀ imm, ¬accepts (.crcupd imm) s) → t.crc ≠ s.crc → y.crc = t.crc

theorem Results.Follow.of_results_eq {s t : State} {x y : Results} (h : y = results t) :
    Results.Follow s t x y := by
  subst h
  exact ⟨fun _ => rfl, fun _ => rfl, fun _ => rfl, fun _ => rfl, fun _ _ => rfl, fun _ _ => rfl,
    fun _ _ _ => rfl⟩

theorem Results.Follow.of_unchanged {s t : State} {x : Results} (h : results t = results s) :
    Results.Follow s t x x := by
  simp only [results, Results.mk.injEq] at h
  obtain ⟨h1, h2, h3, h4, h5, h6⟩ := h
  exact ⟨fun h => h.trans h1.symm, fun h => h.trans h2.symm, fun h => h.trans h3.symm,
    fun h => h.trans h6.symm, fun _ h => h.trans h4.symm, fun _ h => h.trans h5.symm,
    fun _ _ h => absurd h5 h⟩

theorem bufBytes_congr {s u : State} (h : u.buf = s.buf) : bufBytes u = bufBytes s :=
  List.map_congr_left fun i _ => memRead_congr h i

theorem exec_withResults {i : Instr} {s u : State} (x : Results) (ha : accepts i s)
    (h : exec i s = .next u) :
    ∃ y, exec i (withResults x s) = .next (withResults y u) ∧ Results.Follow s u x y := by
  cases i with
  | crcclr =>
    cases h
    exact ⟨{ x with crc := crcInit }, rfl, id, id, id, id, fun _ => id, fun _ _ => rfl, fun _ _ _ => rfl⟩
  | crcupd imm =>
    cases h
    exact ⟨{ x with crc := crc8Byte x.crc imm }, rfl, id, id, id, id, fun _ => id,
      fun _ hc => congrArg (crc8Byte · imm) hc, fun _ hn _ => absurd ha (hn imm)⟩
  | crcbuf len =>
    simp only [exec, execCrcbuf, bufPrefix?] at h ⊢
    by_cases hl : len.toNat ≤ 9
    · rw [if_pos hl] at h ⊢
      cases h
      have hcrc : x.buf = s.buf →
          crc8 ((bufBytes (withResults x s)).take len.toNat) = crc8 ((bufBytes s).take len.toNat) :=
        fun hb => by rw [bufBytes_congr (u := withResults x s) hb]
      exact ⟨{ x with crc := crc8 ((bufBytes (withResults x s)).take len.toNat) }, rfl, id, id, id, id,
        fun _ => id, fun hb _ => hb.elim hcrc fun hn => absurd ha (hn len), fun hb _ _ => hcrc hb⟩
    · rw [if_neg hl] at h ⊢
      cases h
      exact ⟨{ x with err := true }, rfl, id, id, fun _ => rfl, id, fun _ => id, fun _ => id,
        fun _ _ hc => absurd rfl hc⟩
  | stbuf idx imm =>
    simp only [exec, execStbuf] at h ⊢
    cases hj : bufIdx? idx with
    | some j =>
      rw [hj] at h
      cases h
      exact ⟨{ x with buf := Memory.put j.val imm x.buf }, rfl, id, id, id,
        congrArg (Memory.put j.val imm), fun _ => id, fun _ => id, fun _ _ hc => absurd rfl hc⟩
    | none =>
      rw [hj] at h
      cases h
      exact ⟨{ x with err := true }, rfl, id, id, fun _ => rfl, id, fun _ => id, fun _ => id,
        fun _ _ hc => absurd rfl hc⟩
  | ldbuf idx =>
    simp only [exec, execLdbuf] at h ⊢
    cases hj : bufIdx? idx with
    | some j =>
      rw [hj] at h
      cases h
      exact ⟨{ x with data := Memory.get j.val x.buf }, rfl, id, id, id, id,
        fun hb _ => hb.elim (congrArg (Memory.get j.val)) fun hn => absurd ha (hn idx), fun _ => id,
        fun _ _ hc => absurd rfl hc⟩
    | none =>
      rw [hj] at h
      cases h
      exact ⟨{ x with err := true }, rfl, id, id, fun _ => rfl, id, fun _ => id, fun _ => id,
        fun _ _ hc => absurd rfl hc⟩
  | _ => cases h; exact ⟨x, rfl, .of_unchanged rfl⟩

theorem dataAfterByte_congr {s u : State} (item : Item) (hsh : u.sh = s.sh) (h : u.data = s.data) :
    dataAfterByte item u = dataAfterByte item s := by simp only [dataAfterByte, hsh, h]

theorem bufAfterByte_congr {s u : State} (item : Item) (hsh : u.sh = s.sh) (h : u.buf = s.buf) :
    bufAfterByte item u = bufAfterByte item s := by cases item <;> simp only [bufAfterByte, hsh, h]

/-- The result registers `x` once a byte is complete. -/
def Results.afterByte (item : Item) (s : State) (x : Results) : Results :=
  { x with data := dataAfterByte item (withResults x s), buf := bufAfterByte item (withResults x s) }

theorem Results.Follow.of_byte {s t : State} (item : Item) (x : Results)
    (h : results t = (results s).afterByte item s) : Results.Follow s t x (x.afterByte item s) := by
  simp only [results, Results.afterByte, Results.mk.injEq] at h
  obtain ⟨h1, h2, h3, h4, h5, h6⟩ := h
  exact ⟨fun h => h.trans h1.symm, fun h => h.trans h2.symm, fun h => h.trans h3.symm,
    fun h => (bufAfterByte_congr (s := s) (u := withResults x s) item rfl h).trans h6.symm,
    fun _ h => (dataAfterByte_congr (s := s) (u := withResults x s) item rfl h).trans h4.symm,
    fun _ h => h.trans h5.symm,
    fun _ _ h => absurd h5 h⟩

/-- A busy tick takes its course from no result register, but that WRSCR reads its three bytes. -/
theorem busy_tick_withResults {s : State} {k : Prim} (x : Results) (hk : kind? s = some k)
    (hbuf : s.op = .wrscr → ∀ i, i < 3 → Memory.get i x.buf = Memory.get i s.buf) :
    ∃ y, moveOn k (sense k (withResults x s)) = withResults y (moveOn k (sense k s)) ∧
      Results.Follow s (moveOn k (sense k s)) x y := by
  rcases busy_tick_cases hk with ⟨hp, he⟩ | ⟨item, hi, -, rfl, hcase⟩
  · rw [he]
    refine ⟨{ x with
        pres := if k = .reset ∧ s.t = 565 then !owInAt 0 s else x.pres
        rbit := if k = .rd ∧ s.t = 10 then owInAt 0 s else x.rbit },
      primitive_tick (s := withResults x s) hp, fun h => ?_, fun h => ?_, id, id, fun _ => id, fun _ => id,
      fun _ _ hc => absurd rfl hc⟩
    · rw [h]
    · rw [h]
  · rcases hcase with ⟨ht, he⟩ | ⟨ht, hb, he⟩ | ⟨ht, hb, next, hn, he⟩ | ⟨ht, hb, hn, he⟩ <;> rw [he]
    · exact ⟨x, slot_tick_inside (s := withResults x s) hi ht, .of_unchanged rfl⟩
    · exact ⟨x, slot_tick_last (s := withResults x s) hi ht hb, .of_unchanged rfl⟩
    · have hv : itemValue? none (withResults x s) next = itemValue? none s next := by
        cases next with
        | wb i =>
          obtain ⟨ho, h3⟩ := wb_of_plan hn
          exact congrArg some (hbuf ho i.val h3)
        | _ => rfl
      refine ⟨x.afterByte item s, ?_, .of_byte item x rfl⟩
      rw [← hv]
      exact byte_tick_last_next (s := withResults x s) hi ht hb hn
    · exact ⟨x.afterByte item s, byte_tick_last_end (s := withResults x s) hi ht hb hn, .of_byte item x rfl⟩

/-- A tick takes its course from no result register, but that WRSCR reads its three bytes. -/
theorem step_withResults {s t : State} (x : Results) (h : step s = .next t)
    (hbuf : s.op = .wrscr → ∀ i, i < 3 → Memory.get i x.buf = Memory.get i s.buf) :
    ∃ y, step (withResults x s) = .next (withResults y t) ∧ Results.Follow s t x y := by
  rcases step_cases h with
    ⟨hr, rfl⟩ | ⟨hr, hi, hc, rfl⟩ | ⟨hr, hi, ⟨c, hc⟩, rfl⟩ | ⟨i, u, ha, hu, rfl⟩ | ⟨hr, hb, k, hk, rfl⟩
  · exact ⟨results (resetRegs s), step_of_rst (s := withResults x s) hr, .of_results_eq rfl⟩
  · exact ⟨x, step_of_idle (s := withResults x s) hr hi hc, .of_unchanged rfl⟩
  · exact ⟨{ x with err := true }, step_of_illegal (s := withResults x s) hr hi hc, id, id, fun _ => rfl, id,
      fun _ => id, fun _ => id, fun _ _ hc => absurd rfl hc⟩
  · obtain ⟨y, hy, hf⟩ := exec_withResults x ha hu
    refine ⟨y, ?_, ⟨hf.pres, hf.rbit, hf.err, hf.buf, hf.data, hf.crc, hf.crcFresh⟩⟩
    rw [step_of_accept (s := withResults x s) ha, hy]
    rfl
  · obtain ⟨y, hy, hf⟩ := busy_tick_withResults x hk hbuf
    refine ⟨y, ?_, ⟨hf.pres, hf.rbit, hf.err, hf.buf, hf.data, hf.crc, hf.crcFresh⟩⟩
    rw [step_of_busy (s := withResults x s) hr hb hk, hy]
    rfl

/-! ### What a tick writes -/

/-- A tick without `rst` that changes a part of the state other than `ERR` and the input streams accepts a
command or is busy. -/
theorem step_writes {α : Type} (f : State → α) (hend : ∀ u, f (endTick u) = f u)
    (herr : ∀ u, f { u with err := true } = f u) {s t : State} (h : step s = .next t) (hne : f t ≠ f s) :
    rstAt 0 s = true ∨ (∃ i u, accepts i s ∧ AcceptEffect s i u ∧ f t = f u) ∨
      ∃ k, kind? s = some k ∧ f t = f (moveOn k (sense k s)) := by
  rcases step_cases h with
    ⟨hr, -⟩ | ⟨-, -, -, rfl⟩ | ⟨-, -, -, rfl⟩ | ⟨i, u, ha, hu, rfl⟩ | ⟨-, -, k, hk, rfl⟩
  · exact .inl hr
  · exact absurd (hend s) hne
  · exact absurd ((hend _).trans (herr s)) hne
  · exact .inr (.inl ⟨i, u, ha, acceptEffect_of_exec hu, hend u⟩)
  · exact .inr (.inr ⟨k, hk, hend _⟩)

/-- What a busy tick does to the result registers: a sample in a primitive command, the store of a complete
byte, or nothing. -/
theorem results_of_busy_tick {s : State} {k : Prim} (hk : kind? s = some k) :
    (primitiveOf? s.op = some k ∧ results (moveOn k (sense k s)) = { results s with
      pres := if k = .reset ∧ s.t = 565 then !owInAt 0 s else s.pres
      rbit := if k = .rd ∧ s.t = 10 then owInAt 0 s else s.rbit }) ∨
    results (moveOn k (sense k s)) = results s ∨
    ∃ item, itemNow? s = some item ∧ 74 ≤ s.t ∧ 7 ≤ s.bitIdx ∧
      results (moveOn k (sense k s)) = (results s).afterByte item s := by
  rcases busy_tick_cases hk with ⟨hp, he⟩ | ⟨item, hi, -, rfl, ⟨-, he⟩ | ⟨-, -, he⟩ |
    ⟨ht, hb, next, -, he⟩ | ⟨ht, hb, -, he⟩⟩ <;> rw [he]
  · exact .inl ⟨hp, rfl⟩
  · exact .inr (.inl rfl)
  · exact .inr (.inl rfl)
  · exact .inr (.inr ⟨item, hi, ht, hb, rfl⟩)
  · exact .inr (.inr ⟨item, hi, ht, hb, rfl⟩)

theorem busy_tick_err {s : State} {k : Prim} (hk : kind? s = some k) :
    (moveOn k (sense k s)).err = s.err := by
  rcases results_of_busy_tick hk with ⟨-, he⟩ | he | ⟨item, -, -, -, he⟩ <;> exact congrArg Results.err he

theorem busy_tick_crc {s : State} {k : Prim} (hk : kind? s = some k) :
    (moveOn k (sense k s)).crc = s.crc := by
  rcases results_of_busy_tick hk with ⟨-, he⟩ | he | ⟨item, -, -, -, he⟩ <;> exact congrArg Results.crc he

theorem busy_tick_pres {s : State} {k : Prim} (hk : kind? s = some k) :
    (moveOn k (sense k s)).pres = s.pres ∨
      s.op = .reset ∧ s.t = 565 ∧ (moveOn k (sense k s)).pres = !owInAt 0 s := by
  rcases results_of_busy_tick hk with ⟨hp, he⟩ | he | ⟨item, -, -, -, he⟩ <;>
    replace he := congrArg Results.pres he
  · by_cases hq : k = .reset ∧ s.t = 565
    · obtain ⟨rfl, ht⟩ := hq
      exact .inr ⟨kind?_eq_reset_iff.mp hk, ht, he.trans (if_pos ⟨rfl, ht⟩)⟩
    · exact .inl (he.trans (if_neg hq))
  · exact .inl he
  · exact .inl he

theorem busy_tick_rbit {s : State} {k : Prim} (hk : kind? s = some k) :
    (moveOn k (sense k s)).rbit = s.rbit ∨
      s.op = .rdbit ∧ s.t = 10 ∧ (moveOn k (sense k s)).rbit = owInAt 0 s := by
  rcases results_of_busy_tick hk with ⟨hp, he⟩ | he | ⟨item, -, -, -, he⟩ <;>
    replace he := congrArg Results.rbit he
  · by_cases hq : k = .rd ∧ s.t = 10
    · obtain ⟨rfl, ht⟩ := hq
      exact .inr ⟨op_eq_rdbit_of_primitive hp, ht, he.trans (if_pos ⟨rfl, ht⟩)⟩
    · exact .inl (he.trans (if_neg hq))
  · exact .inl he
  · exact .inl he

theorem busy_tick_data {s : State} {k : Prim} (hk : kind? s = some k) :
    (moveOn k (sense k s)).data = s.data ∨
      itemNow? s = some .rd ∧ 74 ≤ s.t ∧ 7 ≤ s.bitIdx ∧ (moveOn k (sense k s)).data = s.sh := by
  rcases results_of_busy_tick hk with ⟨-, he⟩ | he | ⟨item, hi, ht, hb, he⟩ <;>
    replace he := congrArg Results.data he
  · exact .inl he
  · exact .inl he
  · by_cases hrd : item = .rd
    · subst hrd
      exact .inr ⟨hi, ht, hb, he⟩
    · exact .inl (he.trans (if_neg hrd))

theorem busy_tick_buf {s : State} {k : Prim} (hk : kind? s = some k) :
    (moveOn k (sense k s)).buf = s.buf ∨ ∃ j, itemNow? s = some (.rb j) ∧ 74 ≤ s.t ∧ 7 ≤ s.bitIdx ∧
      (moveOn k (sense k s)).buf = Memory.put j.val s.sh s.buf := by
  rcases results_of_busy_tick hk with ⟨-, he⟩ | he | ⟨item, hi, ht, hb, he⟩ <;>
    replace he := congrArg Results.buf he
  · exact .inl he
  · exact .inl he
  · cases item with
    | rb j => exact .inr ⟨j, hi, ht, hb, he⟩
    | _ => exact .inl he

/-! ### The last tick of a command -/

theorem lastTick_of_primitive {s : State} {k : Prim} (hp : primitiveOf? s.op = some k) :
    lastTick s = true ↔ s.t + 1 = primLen k := by
  rw [lastTick, hp]
  exact decide_eq_true_iff

theorem lastTick_of_item {s : State} {item : Item} (hi : itemNow? s = some item) :
    lastTick s = true ↔ s.t + 1 = tSlot ∧ s.bitIdx = 7 ∧ s.byteIdx + 1 = nbytes s.op := by
  simp [lastTick, primitiveOf?_of_item hi, op_ne_idle_of_item hi, and_assoc]

/-- `OP` keeps its value in a busy tick but for the last one of a command. -/
theorem busy_tick_op {s : State} {k : Prim} (hs : seqLegal s = true) (hk : kind? s = some k) :
    (lastTick s = false ∧ (moveOn k (sense k s)).op = s.op) ∨
      lastTick s = true ∧ (moveOn k (sense k s)).op = .idle := by
  rcases busy_tick_cases hk with ⟨hp, he⟩ | ⟨item, hi, -, rfl, hcase⟩
  · obtain ⟨-, -, ht⟩ := range_of_seqLegal_primitive hs hp
    have hl := lastTick_of_primitive hp
    rw [he]
    by_cases hlt : s.t < primLen k - 1
    · exact .inl ⟨by rw [Bool.eq_false_iff, ne_eq, hl]; omega, if_pos hlt⟩
    · exact .inr ⟨hl.mpr (by omega), if_neg hlt⟩
  · obtain ⟨hy, hb, ht⟩ := range_of_seqLegal_item hs hi
    have hl := lastTick_of_item hi
    rw [tSlot] at hl
    rcases hcase with ⟨hlt, he⟩ | ⟨-, hlt, he⟩ | ⟨-, -, next, hn, he⟩ | ⟨h74, h7, hn, he⟩ <;> rw [he]
    · exact .inl ⟨by rw [Bool.eq_false_iff, ne_eq, hl]; omega, rfl⟩
    · exact .inl ⟨by rw [Bool.eq_false_iff, ne_eq, hl]; omega, rfl⟩
    · have hlt : s.byteIdx + 1 < nbytes s.op := (List.getElem?_eq_some_iff.mp hn).1
      exact .inl ⟨by rw [Bool.eq_false_iff, ne_eq, hl]; omega, rfl⟩
    · have hle : nbytes s.op ≤ s.byteIdx + 1 := List.getElem?_eq_none_iff.mp hn
      exact .inr ⟨hl.mpr (by omega), rfl⟩

/-! ### The registers, one by one -/

/-- Settles O36: RESET alone writes `PRES`, and no tick takes its course from it. -/
theorem presWrittenByResetOnly : Obligations.PresWrittenByResetOnly := by
  refine ⟨fun s t h hne => ?_, fun s ho ht hr => ?_, fun s t b h => ?_, rfl⟩
  · rcases step_writes State.pres (fun _ => rfl) (fun _ => rfl) h hne with
      hr | ⟨i, u, -, hu, ht⟩ | ⟨k, hk, ht⟩
    · exact .inl hr
    · exact absurd (ht.trans hu.pres_eq) hne
    · rw [ht] at hne ⊢
      exact .inr ((busy_tick_pres hk).resolve_left hne)
  · exact ⟨_, step_of_primitive (k := .reset) (n := 999) (by rw [ho]; rfl) rfl hr, if_pos ⟨rfl, ht⟩⟩
  · obtain ⟨y, hy, hf⟩ := step_withResults { results s with pres := b } h fun _ _ _ => rfl
    refine ⟨_, hy, ?_⟩
    simp [withResults, hf.rbit rfl, hf.err rfl, hf.data (.inl rfl) rfl, hf.crc (.inl rfl) rfl, hf.buf rfl]

/-- Settles O37: RDBIT alone writes `RBIT`, and no tick takes its course from it. -/
theorem rbitWrittenByRdbitOnly : Obligations.RbitWrittenByRdbitOnly := by
  refine ⟨fun s t h hne => ?_, fun s ho ht hr => ?_, fun s t b h => ?_, rfl⟩
  · rcases step_writes State.rbit (fun _ => rfl) (fun _ => rfl) h hne with
      hr | ⟨i, u, -, hu, ht⟩ | ⟨k, hk, ht⟩
    · exact .inl hr
    · exact absurd (ht.trans hu.rbit_eq) hne
    · rw [ht] at hne ⊢
      exact .inr ((busy_tick_rbit hk).resolve_left hne)
  · exact ⟨_, step_of_primitive (k := .rd) (n := 74) (by rw [ho]; rfl) rfl hr, if_pos ⟨rfl, ht⟩⟩
  · obtain ⟨y, hy, hf⟩ := step_withResults { results s with rbit := b } h fun _ _ _ => rfl
    refine ⟨_, hy, ?_⟩
    simp [withResults, hf.pres rfl, hf.err rfl, hf.data (.inl rfl) rfl, hf.crc (.inl rfl) rfl, hf.buf rfl]

theorem lastTick_rdbyte {s : State} (ho : s.op = .rdbyte) :
    lastTick s = true ↔ s.t = 74 ∧ s.bitIdx = 7 ∧ s.byteIdx = 0 := by
  simp [lastTick, ho, primitiveOf?, nbytes, plan, tSlot, and_assoc]

/-- Settles O38: RDBYTE in its last tick and LDBUF write `DATA`, and no tick takes its course from it. -/
theorem dataWrittenByRdbyteAndLdbufOnly : Obligations.DataWrittenByRdbyteAndLdbufOnly := by
  refine ⟨fun s t hs h hne => ?_, fun s ho hl hr => ?_, fun s idx i ha hi => ?_, fun s t v h => ?_, rfl⟩
  · rcases step_writes State.data (fun _ => rfl) (fun _ => rfl) h hne with
      hr | ⟨i, u, ha, hu, ht⟩ | ⟨k, hk, ht⟩
    · exact .inl hr
    · rw [ht] at hne ⊢
      obtain ⟨idx, j, rfl, hj, hd⟩ := hu.data_eq hne
      exact .inr (.inr ⟨idx, j, ha, hj, hd⟩)
    · rw [ht] at hne ⊢
      obtain ⟨hi, h74, h7, hd⟩ := (busy_tick_data hk).resolve_left hne
      obtain ⟨ho, hy⟩ := rd_of_plan hi
      obtain ⟨-, hb, ht⟩ := range_of_seqLegal_item hs.1 hi
      exact .inr (.inl ⟨ho, (lastTick_rdbyte ho).mpr (by omega), hd⟩)
  · obtain ⟨ht, hb, hy⟩ := (lastTick_rdbyte ho).mp hl
    have hi : itemNow? s = some .rd := by rw [itemNow?, ho, hy]; rfl
    refine ⟨_, step_of_item hi hr, ?_⟩
    rw [byte_tick_last_end hi (by omega) (by omega) (by rw [ho, hy]; rfl)]
    rfl
  · rw [step_of_accept ha]
    simp only [exec, execLdbuf, bufIdx?_eq_some.mpr hi]
    exact ⟨_, rfl, rfl⟩
  · obtain ⟨y, hy, hf⟩ := step_withResults { results s with data := v } h fun _ _ _ => rfl
    refine ⟨_, hy, ?_⟩
    simp [withResults, hf.pres rfl, hf.rbit rfl, hf.err rfl, hf.crc (.inl rfl) rfl, hf.buf rfl]

/-- Settles O39: the CRC commands alone write `CRC`, and of them CRCUPD alone reads it. -/
theorem crcWrittenByCrcCommandsOnly : Obligations.CrcWrittenByCrcCommandsOnly := by
  refine ⟨fun s t h hne => ?_, fun s t v h => ?_, fun s => decide_eq_true_iff, rfl, rfl⟩
  · rcases step_writes State.crc (fun _ => rfl) (fun _ => rfl) h hne with
      hr | ⟨i, u, ha, hu, ht⟩ | ⟨k, hk, ht⟩
    · exact .inl hr
    · rcases hu.crc_eq (ht ▸ hne) with rfl | ⟨imm, rfl⟩ | ⟨len, rfl⟩
      · exact .inr (.inl ha)
      · exact .inr (.inr (.inl ⟨imm, ha⟩))
      · exact .inr (.inr (.inr ⟨len, ha⟩))
    · exact absurd (ht.trans (busy_tick_crc hk)) hne
  · obtain ⟨y, hy, hf⟩ := step_withResults { results s with crc := v } h fun _ _ _ => rfl
    refine ⟨_, hy, ?_, hf.crcFresh rfl⟩
    simp [withResults, hf.pres rfl, hf.rbit rfl, hf.err rfl, hf.data (.inl rfl) rfl, hf.buf rfl]

/-- Settles O40: an illegal word alone sets `ERR`, `rst` alone clears it, and no tick takes its course from
it. -/
theorem errIsStickyUntilRst : Obligations.ErrIsStickyUntilRst := by
  refine ⟨fun s t hr h => ?_, fun s t hr h => ?_, fun s t b h => ?_⟩
  · rcases step_cases h with
      ⟨hr', -⟩ | ⟨-, -, hc, rfl⟩ | ⟨-, hi, hc, rfl⟩ | ⟨i, u, ha, hu, rfl⟩ | ⟨-, hb, k, hk, rfl⟩
    · rw [hr] at hr'; cases hr'
    · simp [hc]
    · exact iff_of_true rfl (.inr ⟨hi, hc⟩)
    · have herr := (acceptEffect_of_exec hu).err_eq (wf_of_accepts ha)
      simp [herr, ha.2.2]
    · simp [busy_tick_err hk, hb]
  · rw [step_of_rst hr] at h
    cases h
    rfl
  · obtain ⟨y, hy, hf⟩ := step_withResults { results s with err := b } h fun _ _ _ => rfl
    refine ⟨_, hy, ?_⟩
    simp [withResults, hf.pres rfl, hf.rbit rfl, hf.data (.inl rfl) rfl, hf.crc (.inl rfl) rfl, hf.buf rfl]

/-- A buffer byte that a write changes is the byte written. -/
theorem get_put_ne {m : Memory} {a b : Nat} {v : Byte} (hm : Memory.wf m)
    (h : Memory.get b (Memory.put a v m) ≠ Memory.get b m) : a = b ∧ Memory.get b (Memory.put a v m) = v := by
  by_cases hab : b = a
  · subst hab
    exact ⟨rfl, Memory.get_put_same b v hm⟩
  · exact absurd (Memory.get_put_other v hab) h

/-- Settles O41: STBUF and the read items of the byte plans write the buffer; LDBUF, CRCBUF and the write items
of WRSCR read it. -/
theorem bufWrittenByThreeCommandsOnly : Obligations.BufWrittenByThreeCommandsOnly := by
  refine ⟨fun s t i hs h hne => ?_, fun s t m h hbuf hld hcrc => ?_⟩
  · obtain ⟨hseq, hwf⟩ := hs
    rcases step_writes (memRead i) (fun _ => rfl) (fun _ => rfl) h hne with
      hr | ⟨c, u, ha, hu, ht⟩ | ⟨k, hk, ht⟩
    · exact .inl hr
    · rw [ht] at hne ⊢
      rcases hu.buf_eq with he | ⟨idx, imm, j, rfl, hj, he⟩
      · exact absurd (memRead_congr he i) hne
      · rw [memRead, memRead, he] at hne
        rw [memRead, he]
        obtain ⟨hji, hv⟩ := get_put_ne hwf hne
        exact .inr (.inl ⟨idx, imm, ha, hj.trans hji, hv⟩)
    · rw [ht] at hne ⊢
      rcases busy_tick_buf hk with he | ⟨j, hi, h74, h7, he⟩
      · exact absurd (memRead_congr he i) hne
      · rw [memRead, memRead, he] at hne
        rw [memRead, he]
        obtain ⟨hji, hv⟩ := get_put_ne hwf hne
        obtain ⟨ho, hy⟩ := rb_of_plan hi
        obtain ⟨-, hb, ht⟩ := range_of_seqLegal_item hseq hi
        rw [hji] at ho hy
        exact .inr (.inr ⟨ho, hy, by omega, by omega, hv⟩)
  · obtain ⟨y, hy, hf⟩ := step_withResults { results s with buf := m } h hbuf
    refine ⟨_, hy, ?_⟩
    simp [withResults, hf.pres rfl, hf.rbit rfl, hf.err rfl, hf.data (.inr hld) rfl, hf.crc (.inr hcrc) rfl]

/-- Settles O42: only the byte commands load or shift the shifter. -/
theorem shifterKeptOutsideByteCommands : Obligations.ShifterKeptOutsideByteCommands := by
  refine ⟨fun s t hr hp h => ?_, fun s t hr hi hna h => ?_, fun s t i ha hp h => ?_⟩
  · obtain ⟨k, hk⟩ := Option.ne_none_iff_exists'.mp hp
    rw [step_of_busy hr (op_ne_idle_of_primitive hk) (kind?_of_primitive hk), primitive_tick hk] at h
    cases h
    rfl
  · cases hd : offered s with
    | none => rw [step_of_idle hr hi hd] at h; cases h; rfl
    | some d =>
      cases d with
      | illegal c => rw [step_of_illegal hr hi hd] at h; cases h; rfl
      | command i => exact absurd ⟨hi, hr, hd⟩ (hna i)
  · obtain ⟨u, hu⟩ := exec_next i s
    rw [step_of_accept ha, hu] at h
    cases h
    exact (acceptEffect_of_exec hu).sh_eq hp

theorem op_of_rst {s t : State} (hr : rstAt 0 s = true) (h : step s = .next t) : t.op = .idle := by
  rw [step_of_rst hr] at h
  cases h
  rfl

/-- Settles O43: `OP` changes when a command is accepted and in its last tick. -/
theorem opChangesOnlyAtCommandEnds : Obligations.OpChangesOnlyAtCommandEnds := by
  refine ⟨fun s t hs h hne => ?_, fun s i ha => ?_, fun s t hr h => ?_, fun s hs hr hl => ?_⟩
  · rcases step_writes State.op (fun _ => rfl) (fun _ => rfl) h hne with
      hr | ⟨i, u, ha, hu, ht⟩ | ⟨k, hk, ht⟩
    · exact .inl ⟨hr, op_of_rst hr h⟩
    · exact .inr (.inl ⟨i, ha, ht.trans (hu.op_eq ha.1)⟩)
    · rw [ht] at hne ⊢
      exact .inr (.inr ((busy_tick_op hs.1 hk).resolve_left fun he => hne he.2))
  · obtain ⟨u, hu⟩ := exec_next i s
    exact ⟨endTick u, by rw [step_of_accept ha, hu]; rfl, (acceptEffect_of_exec hu).op_eq ha.1⟩
  · exact op_of_rst hr h
  · have hb : s.op ≠ .idle := fun hi => by simp [lastTick, primitiveOf?, hi] at hl
    obtain ⟨k, hk, -⟩ := kind?_of_seqLegal hs.1 hb
    refine ⟨_, step_of_busy hr hb hk, ?_⟩
    rcases busy_tick_op hs.1 hk with ⟨hn, -⟩ | ⟨-, he⟩
    · rw [hl] at hn; cases hn
    · exact he

/-! ### Acceptance, reset and STATUS -/

theorem endTick_of_streams {s u : State} (h1 : u.rsts = s.rsts) (h2 : u.cmds = s.cmds)
    (h3 : u.rdSels = s.rdSels) (h4 : u.levels = s.levels) (h5 : u.tick = s.tick) :
    endTick u = { u with
      rsts := s.rsts.tail, cmds := s.cmds.tail, rdSels := s.rdSels.tail, levels := s.levels.tail,
      tick := s.tick + 1 } := by
  simp only [endTick, h1, h2, h3, h4, h5]

theorem withFetchWord_accepts {i : Instr} (h : i.wf = true) (s : State) :
    accepts i (s.withFetchWord 16 (encode i).toNat) := by
  have hrst : rstAt 0 (s.withFetchWord 16 (encode i).toNat) = false := by
    cases hl : s.rsts <;> simp [State.withFetchWord, rstAt, hl]
  have hcmd : cmdAt 0 (s.withFetchWord 16 (encode i).toNat) = some (encode i) := by
    have hlt := (encode i).isLt
    simp [State.withFetchWord, cmdAt, Nat.mod_eq_of_lt hlt]
  exact ⟨rfl, hrst, by rw [offered, hcmd, Option.map_some, decode_encode_of_wf h]⟩

/-- Settles O9: no command touches the input streams, so they move on by themselves. -/
theorem stepRunsTheDecodedCommand : Obligations.StepRunsTheDecodedCommand := by
  refine ⟨fun s w i hi hr hc hd => ?_, fun s hi hr hc => ?_, fun s i hw => ?_⟩
  · have ha : accepts i s := ⟨hi, hr, by rw [offered, hc, Option.map_some, hd]⟩
    obtain ⟨u, hu⟩ := exec_next i s
    obtain ⟨-, -, h1, h2, h3, h4, h5⟩ := exec_keeps hu
    refine ⟨u, hu, ?_⟩
    rw [step_of_accept ha, hu, mapNext, endTick_of_streams h1 h2 h3 h4 h5]
  · exact step_of_idle hr hi (by rw [offered, hc, Option.map_none])
  · exact step_of_accept (withFetchWord_accepts hw s)

/-- Settles O11, by evaluation of the reset state. -/
theorem resetStateAndOutputs : Obligations.ResetStateAndOutputs :=
  ⟨rfl, rfl, rfl, rfl, rfl, fun _ => rfl, rfl, rfl, rfl, rfl, rfl, rfl, rfl, fun _ => rfl, rfl, rfl, rfl⟩

/-- A byte put together from five flags, the lowest last, holds each flag in its bit. -/
theorem getLsbD_of_flags {v : Byte} {z e r p b : Bool} (h : v = 0b000#3 ++ BitVec.ofBool z ++
    BitVec.ofBool e ++ BitVec.ofBool r ++ BitVec.ofBool p ++ BitVec.ofBool b) :
    v.getLsbD 0 = b ∧ v.getLsbD 1 = p ∧ v.getLsbD 2 = r ∧ v.getLsbD 3 = e ∧ v.getLsbD 4 = z ∧
      v.getLsbD 5 = false ∧ v.getLsbD 6 = false ∧ v.getLsbD 7 = false := by
  subst h
  revert z e r p b
  decide

/-- Settles O17: STATUS is put together from its five flags. -/
theorem statusBitsAndReady : Obligations.StatusBitsAndReady := by
  refine ⟨fun s => getLsbD_of_flags rfl, rfl, fun s => ⟨decide_eq_true_iff, ?_⟩⟩
  simp [cmdReady]

/-- Settles O30: no primitive command loads the shifter. -/
theorem primitiveCommandsAreAccepted : Obligations.PrimitiveCommandsAreAccepted :=
  fun _ => ⟨rfl, rfl, rfl, rfl⟩

/-- Settles O31: the first item of each byte plan is what the shifter is loaded with. -/
theorem byteCommandsAreAccepted : Obligations.ByteCommandsAreAccepted :=
  fun _ _ => ⟨rfl, rfl, rfl, rfl, rfl, rfl, rfl⟩

end Sys2Proof.Machine

/-! The controller closed with the line: what a sample sees, and the closed run as a run of the controller alone
(spec/20_memory.md R68, R69). -/

namespace Sys2Proof.Machine

/-! ### Sampling and driving -/

/-- A primitive samples the line after the offsets in which it drives it low (spec/10_state.md R40, R44). -/
theorem lowLen_le_sampleOffset {k : Prim} {q : Nat} (h : sampleOffset? k = some q) : lowLen k ≤ q := by
  cases k with
  | reset => cases h; decide
  | rd => cases h; decide
  | w1 => cases h
  | w0 => cases h

theorem sampleOffset_of_sampleTick {s : State} (h : sampleTick s = true) :
    ∃ k, kind? s = some k ∧ sampleOffset? k = some s.t := by
  simp only [sampleTick, Bool.or_eq_true, Bool.and_eq_true, decide_eq_true_eq] at h
  rcases h with ⟨hk, ht⟩ | ⟨hk, ht⟩
  · exact ⟨.reset, hk, by rw [ht]; rfl⟩
  · exact ⟨.rd, hk, by rw [ht]; rfl⟩

@[simp] theorem owInAt_onLine (pull : Bool) (s : State) :
    owInAt 0 (onLine pull s) = lineLevel (owOe s) pull := rfl

/-- Settles O15: the sample offset is past the low part of the primitive, and a released line is the slaves'. -/
theorem neverSamplesWhileDriving : Obligations.NeverSamplesWhileDriving := by
  intro s pull h
  obtain ⟨k, hk, hq⟩ := sampleOffset_of_sampleTick h
  have hreleased : owOe s = false := by
    rw [owOe_of_kind hk]
    exact decide_eq_false (Nat.not_lt.mpr (lowLen_le_sampleOffset hq))
  exact ⟨hreleased, by simp [hreleased, lineLevel]⟩

/-! ### The closed run -/

/-- A tick takes from the input ports only the word and the level of that tick; what they hold for later ticks
it passes on. -/
theorem step_withInputs_of_next {cs : List (Option Word)} {rs : List (BitVec 2)} {ls : List Bool}
    {s t : State} (h : step s = .next t) (hc : cmdAt 0 (withInputs cs rs ls s) = cmdAt 0 s)
    (hl : owInAt 0 (withInputs cs rs ls s) = owInAt 0 s) :
    step (withInputs cs rs ls s) = .next (withInputs cs.tail rs.tail ls.tail t) := by
  have ho : offered (withInputs cs rs ls s) = offered s := congrArg (Option.map decode) hc
  rcases step_cases h with ⟨hr, rfl⟩ | ⟨hr, hi, hd, rfl⟩ | ⟨hr, hi, ⟨c, hd⟩, rfl⟩ |
    ⟨i, u, ⟨hi, hr, hd⟩, hu, rfl⟩ | ⟨hr, hb, k, hk, rfl⟩
  · exact step_of_rst (s := withInputs cs rs ls s) hr
  · exact step_of_idle (s := withInputs cs rs ls s) hr hi (ho.trans hd)
  · exact step_of_illegal (s := withInputs cs rs ls s) hr hi (ho.trans hd)
  · rw [step_of_accept (s := withInputs cs rs ls s) ⟨hi, hr, ho.trans hd⟩, exec_withInputs, hu]
    rfl
  · rw [step_of_busy (s := withInputs cs rs ls s) hr hb hk, busy_tick_withInputs hk fun _ => hl]
    rfl

/-- One tick of the closed model is one tick of the controller alone with the line's level on `ow_in`, whatever
levels stand there for the ticks after it. -/
theorem step_of_lineStep {pull : Bool} {s u : State} (later : List Bool) (h : lineStep pull s = .next u) :
    step { s with levels := lineLevel (owOe s) pull :: later } = .next { u with levels := later } := by
  obtain ⟨-, hcmds, hrdSels, -, -⟩ := step_streams h
  have hstep := step_withInputs_of_next (cs := s.cmds) (rs := s.rdSels)
    (ls := lineLevel (owOe s) pull :: later) h rfl rfl
  simpa [withInputs, onLine, hcmds, hrdSels] using hstep

theorem levels_of_lineStep {pull : Bool} {s u : State} (h : lineStep pull s = .next u) :
    u.levels = s.levels.tail := by
  obtain ⟨-, -, -, hlevels, -⟩ := step_streams h
  simpa [onLine] using hlevels

theorem lineTicks_cons {pull : Bool} {pulls : List Bool} {s t : State}
    (h : lineTicks (pull :: pulls) s = .next t) :
    ∃ u, lineStep pull s = .next u ∧ lineTicks pulls u = .next t := by
  cases hs : lineStep pull s with
  | next u => exact ⟨u, rfl, by simpa [lineTicks, hs] using h⟩
  | fault r => simp [lineTicks, hs] at h
  | refused r => simp [lineTicks, hs] at h

/-- Settles O58, by induction on what the slaves pull: the open run is given the line's level of the first tick
and then the levels of the rest of the closed run. -/
theorem closedRunIsAnOpenRun : Obligations.ClosedRunIsAnOpenRun := by
  intro pulls
  induction pulls with
  | nil => exact fun s t h => ⟨[], rfl, h, fun k hk => absurd hk (Nat.not_lt_zero k)⟩
  | cons pull pulls ih =>
    intro s t h
    obtain ⟨u, hu, hrest⟩ := lineTicks_cons h
    obtain ⟨levels, hlen, hrun, hline⟩ := ih u t hrest
    rw [levels_of_lineStep hu, List.drop_tail] at hrun hline
    have hfirst := step_of_lineStep (levels ++ s.levels.drop (pulls.length + 1)) hu
    refine ⟨lineLevel (owOe s) pull :: levels, by simp [hlen], ?_, fun k hk => ?_⟩
    · exact (ticks_succ_of_step pulls.length hfirst).trans hrun
    · cases k with
      | zero => exact ⟨_, rfl, rfl⟩
      | succ k =>
        obtain ⟨v, hv, hin⟩ := hline k (Nat.lt_of_succ_lt_succ hk)
        exact ⟨v, (ticks_succ_of_step k hfirst).trans hv, hin⟩

end Sys2Proof.Machine

/-! Encoding: the decoder and the encoder agree, and each rule about the words of a command follows from that
(spec/30_encoding.md R90 to R102). -/

namespace Sys2Proof.Machine

/-! ### Decoder and encoder -/

theorem needZeroImm_eq_command_iff {imm : Byte} {i j : Instr} :
    needZeroImm imm i = .command j ↔ imm = 0x00#8 ∧ i = j := by
  unfold needZeroImm
  split <;> simp [*]

theorem nibble_eq_of_toNat_eq {n : Nibble} {k : Nat} (h : n.toNat = k) : n = BitVec.ofNat 4 k := by
  rw [← h, BitVec.ofNat_toNat, BitVec.setWidth_eq]

theorem encode_of_decodeFormatS {funct : Nibble} {imm : Byte} {i : Instr}
    (h : decodeFormatS funct imm = .command i) : encode i = packWord 0x0 funct imm := by
  unfold decodeFormatS at h
  split at h <;> rename_i hfunct
  case h_15 => cases h
  case h_6 => cases h; rw [nibble_eq_of_toNat_eq hfunct]; rfl
  case h_14 => cases h; rw [nibble_eq_of_toNat_eq hfunct]; rfl
  all_goals
    obtain ⟨rfl, rfl⟩ := needZeroImm_eq_command_iff.mp h
    rw [nibble_eq_of_toNat_eq hfunct]
    rfl

theorem encode_of_decodeFields {major minor : Nibble} {imm : Byte} {i : Instr}
    (h : decodeFields major minor imm = .command i) : encode i = packWord major minor imm := by
  unfold decodeFields at h
  split at h <;> rename_i hmajor
  case h_1 => rw [nibble_eq_of_toNat_eq hmajor]; exact encode_of_decodeFormatS h
  case h_5 => cases h
  all_goals
    rw [nibble_eq_of_toNat_eq hmajor]
    split at h
  case h_2.isTrue => cases h; rfl
  case h_3.isTrue => obtain ⟨rfl, rfl⟩ := needZeroImm_eq_command_iff.mp h; rfl
  case h_4.isTrue => obtain ⟨rfl, rfl⟩ := needZeroImm_eq_command_iff.mp h; rfl
  all_goals cases h

/-- A word the decoder accepts is the word of the command it answers (spec/30_encoding.md R93, R97). -/
theorem encode_of_decode {w : Word} {i : Instr} (h : decode w = .command i) : encode i = w :=
  (encode_of_decodeFields h).trans (packWord_fields w)

/-- Settles O6: the decoder answers well-formed commands only, each for its own word, and reads back the
word of every well-formed command. -/
theorem decodeEncodeAgree : Obligations.DecodeEncodeAgree := by
  intro w i
  constructor
  · exact fun h => ⟨decode_wf h, encode_of_decode h⟩
  · rintro ⟨hwf, rfl⟩
    exact decode_encode_of_wf hwf

/-- A well-formed command has exactly one word. -/
theorem decode_eq_command_iff_of_wf {w : Word} {i : Instr} (h : i.wf = true) :
    decode w = .command i ↔ w = encode i := by
  rw [decodeEncodeAgree w i, eq_comm (a := w)]
  exact and_iff_right h

/-! ### Illegal words -/

theorem decodeFormatS_of_reserved {funct : Nibble} (imm : Byte) (h : 14 ≤ funct.toNat) :
    decodeFormatS funct imm = .illegal .reservedFunct := by
  unfold decodeFormatS
  split
  case h_15 => rfl
  all_goals omega

theorem decodeFields_of_reserved {major : Nibble} (minor : Nibble) (imm : Byte) (h : 4 ≤ major.toNat) :
    decodeFields major minor imm = .illegal .reservedMajor := by
  unfold decodeFields
  split
  case h_5 => rfl
  all_goals omega

/-- The words of R98: `funct` 0xE and 0xF, and `major` 0x4 to 0xF. -/
theorem illegal_of_reserved {w : Word}
    (h : (0x0E00 ≤ w.toNat ∧ w.toNat ≤ 0x0FFF) ∨ 0x4000 ≤ w.toNat) : ∃ c, decode w = .illegal c := by
  rcases h with hfunct | hmajor
  · have hmajor : majorField w = 0x0 :=
      BitVec.eq_of_toNat_eq ((majorField_toNat w).trans (Nat.div_eq_of_lt (by omega)))
    have hminor : 14 ≤ (minorField w).toNat := by rw [minorField_toNat]; omega
    exact ⟨_, by rw [decode, hmajor, decodeFields_formatS, decodeFormatS_of_reserved _ hminor]⟩
  · exact ⟨_, decodeFields_of_reserved _ _ (by rw [majorField_toNat]; omega)⟩

/-- Accepting an illegal word raises the command error and does nothing else (spec/60_exceptions.md R260). -/
theorem step_of_illegal_word {w : Word} (h : ∃ c, decode w = .illegal c) (s : State) (hi : s.op = .idle)
    (hr : rstAt 0 s = false) (hw : cmdAt 0 s = some w) : step s = .next (endTick { s with err := true }) := by
  obtain ⟨c, hc⟩ := h
  exact step_of_illegal hr hi (by rw [offered, hw, Option.map_some, hc])

/-- Settles O3: the two ranges are the reserved `funct` and `major` values. -/
theorem reservedOpcodesRaiseCmdError : Obligations.ReservedOpcodesRaiseCmdError :=
  fun _ h => ⟨illegal_of_reserved h, step_of_illegal_word (illegal_of_reserved h)⟩

/-- What the decoder makes of the word of a command with no `imm` operand once `v` stands in its `imm`
field. -/
theorem decode_encode_or_imm {i : Instr} (v : Byte) (hwf : i.wf = true) (hwrbyte : ∀ imm, i ≠ .wrbyte imm)
    (hcrcupd : ∀ imm, i ≠ .crcupd imm) (hstbuf : ∀ idx imm, i ≠ .stbuf idx imm) :
    decode (encode i ||| v.setWidth 16) = needZeroImm v i := by
  cases i with
  | wrbyte imm => exact absurd rfl (hwrbyte imm)
  | crcupd imm => exact absurd rfl (hcrcupd imm)
  | stbuf idx imm => exact absurd rfl (hstbuf idx imm)
  | ldbuf idx => rw [encode, packWord_or_imm, decode_packWord]; exact if_pos hwf
  | crcbuf len => rw [encode, packWord_or_imm, decode_packWord]; exact if_pos hwf
  | _ => rw [encode, packWord_or_imm, decode_packWord]; rfl

/-- Settles O4: such a command is decoded only where its `imm` field is 0x00. -/
theorem nonzeroUnusedImmRaisesCmdError : Obligations.NonzeroUnusedImmRaisesCmdError := by
  intro i v hwf hwrbyte hcrcupd hstbuf hv
  have hillegal : ∃ c, decode (encode i ||| v.setWidth 16) = .illegal c :=
    ⟨_, (decode_encode_or_imm v hwf hwrbyte hcrcupd hstbuf).trans (if_neg hv)⟩
  exact ⟨hillegal, step_of_illegal_word hillegal⟩

theorem idxLegal_eq_false {n : Nibble} (h : 9 ≤ n.toNat) : idxLegal n = false :=
  decide_eq_false (by omega)

theorem lenLegal_eq_false {n : Nibble} (h : 10 ≤ n.toNat) : lenLegal n = false :=
  decide_eq_false (by omega)

/-- Settles O5: the decoder tests the operand before it gives a command, so no access is begun. -/
theorem outOfRangeOperandsRaiseCmdError : Obligations.OutOfRangeOperandsRaiseCmdError := by
  intro n imm w h
  have hillegal : ∃ c, decode w = .illegal c := by
    rcases h with ⟨hn, rfl | rfl⟩ | ⟨hn, rfl⟩
    · exact ⟨_, (decode_packWord 0x1 n imm).trans (if_neg (by simp [idxLegal_eq_false hn]))⟩
    · exact ⟨_, (decode_packWord 0x2 n imm).trans (if_neg (by simp [idxLegal_eq_false hn]))⟩
    · exact ⟨_, (decode_packWord 0x3 n imm).trans (if_neg (by simp [lenLegal_eq_false hn]))⟩
  exact ⟨hillegal, step_of_illegal_word hillegal⟩

/-! ### The words of each format -/

/-- Settles O1: each word is what the encoder gives, and a well-formed command has no other. -/
theorem formatSWordsDecode : Obligations.FormatSWordsDecode := by
  intro w
  refine ⟨decode_eq_command_iff_of_wf rfl, decode_eq_command_iff_of_wf rfl, decode_eq_command_iff_of_wf rfl,
    decode_eq_command_iff_of_wf rfl, decode_eq_command_iff_of_wf rfl,
    fun imm => decode_eq_command_iff_of_wf rfl, decode_eq_command_iff_of_wf rfl,
    decode_eq_command_iff_of_wf rfl, decode_eq_command_iff_of_wf rfl, decode_eq_command_iff_of_wf rfl,
    decode_eq_command_iff_of_wf rfl, decode_eq_command_iff_of_wf rfl, decode_eq_command_iff_of_wf rfl,
    fun imm => decode_eq_command_iff_of_wf rfl, fun imm h => ?_⟩
  rcases h with rfl | rfl
  · exact ⟨_, decode_packWord 0x0 0xE imm⟩
  · exact ⟨_, decode_packWord 0x0 0xF imm⟩

/-- Settles O2: the legal operand ranges are the well-formed commands, and the words the encoder's. -/
theorem formatBWordsDecode : Obligations.FormatBWordsDecode := by
  intro w n imm
  simp only [decodeEncodeAgree w, Instr.wf, idxLegal, lenLegal, decide_eq_true_eq, encode, packWord,
    eq_comm (b := w)]
  exact ⟨Iff.rfl, Iff.rfl, Iff.rfl⟩

/-- Settles O8: each sample is the word the encoder gives a well-formed command. -/
theorem sampleWordsDecode : Obligations.SampleWordsDecode :=
  ⟨decode_encode_of_wf (i := .nop) rfl, decode_encode_of_wf (i := .reset) rfl,
    decode_encode_of_wf (i := .rdbit) rfl, decode_encode_of_wf (i := .wrbyte 0xA5) rfl,
    decode_encode_of_wf (i := .rdrom) rfl, decode_encode_of_wf (i := .wrscr) rfl,
    decode_encode_of_wf (i := .crcupd 0x01) rfl, decode_encode_of_wf (i := .stbuf 8 0x12) rfl,
    decode_encode_of_wf (i := .crcbuf 9) rfl⟩

/-! ### The opcode table -/

theorem packWord_inj {a b a' b' : Nibble} {c c' : Byte} :
    packWord a b c = packWord a' b' c' ↔ a = a' ∧ b = b' ∧ c = c' := by
  constructor
  · intro h
    exact ⟨by simpa using congrArg majorField h, by simpa using congrArg minorField h,
      by simpa using congrArg immField h⟩
  · rintro ⟨rfl, rfl, rfl⟩
    rfl

theorem packWord_and (a b a' b' : Nibble) (c c' : Byte) :
    packWord a b c &&& packWord a' b' c' = packWord (a &&& a') (b &&& b') (c &&& c') :=
  (BitVec.and_append (x₁ := a ++ b)).trans (congrArg (· ++ (c &&& c')) BitVec.and_append)

/-- A row selects a word by its three fields (spec/30_encoding.md R96). -/
theorem selects_iff_fields {r : OpcodeRow} {w : Word} (a b ma mb : Nibble) (c mc : Byte)
    (hpattern : r.pattern = packWord a b c) (hmask : r.mask = packWord ma mb mc) :
    r.selects w = true ↔
      (majorField w &&& ma = a ∧ minorField w &&& mb = b ∧ immField w &&& mc = c) ∧
        ∀ m ∈ r.maxMinor, (minorField w).toNat ≤ m := by
  rw [← packWord_inj, ← packWord_and, packWord_fields, ← hmask, ← hpattern, OpcodeRow.selects]
  cases r.maxMinor <;> simp

/-- The row of a command in the opcode table, whose rows stand in the order of the constructors
(spec/30_encoding.md R96). -/
def tableRow (i : Instr) : OpcodeRow :=
  opcodeTable[i.ctorIdx]'(by cases i <;> simp [opcodeTable, Instr.ctorIdx])

theorem tableRow_mem (i : Instr) : tableRow i ∈ opcodeTable := List.getElem_mem _

theorem tableRow_mnemonic (i : Instr) : (tableRow i).mnemonic = i.mnemonic := by cases i <;> rfl

/-- Every row is the row of a command. -/
theorem exists_tableRow_eq {r : OpcodeRow} (h : r ∈ opcodeTable) : ∃ i, tableRow i = r := by
  have htable : opcodeTable = [Instr.nop, .reset, .rdbit, .wr0, .wr1, .wrbyte 0, .rdbyte, .rdrom, .skiprom,
    .convt, .rdscr, .wrscr, .crcclr, .crcupd 0, .stbuf 0 0, .ldbuf 0, .crcbuf 0].map tableRow := rfl
  rw [htable, List.mem_map] at h
  obtain ⟨i, -, hi⟩ := h
  exact ⟨i, hi⟩

theorem opcodeTable_nodup : opcodeTable.Nodup := .of_map (·.pattern) (by decide)

/-- The row of a command without operands selects the command's word alone. -/
theorem full_mask_row_selects_iff {i : Instr} {w : Word} (hmask : (tableRow i).mask = BitVec.allOnes 16)
    (hmax : (tableRow i).maxMinor = none) (hpattern : (tableRow i).pattern = encode i) :
    (tableRow i).selects w = true ↔ w = encode i := by
  rw [OpcodeRow.selects, hmask, hmax, hpattern, BitVec.and_allOnes]
  simp

theorem wrbyte_row_selects_iff {imm : Byte} {w : Word} :
    (tableRow (.wrbyte imm)).selects w = true ↔ majorField w = 0x0 ∧ minorField w = 0x5 := by
  rw [selects_iff_fields 0x0 0x5 (.allOnes 4) (.allOnes 4) 0x00 0x00 rfl rfl]
  simp only [BitVec.and_allOnes]
  simp [tableRow, opcodeTable, Instr.ctorIdx]

theorem crcupd_row_selects_iff {imm : Byte} {w : Word} :
    (tableRow (.crcupd imm)).selects w = true ↔ majorField w = 0x0 ∧ minorField w = 0xD := by
  rw [selects_iff_fields 0x0 0xD (.allOnes 4) (.allOnes 4) 0x00 0x00 rfl rfl]
  simp only [BitVec.and_allOnes]
  simp [tableRow, opcodeTable, Instr.ctorIdx]

theorem stbuf_row_selects_iff {idx : Nibble} {imm : Byte} {w : Word} :
    (tableRow (.stbuf idx imm)).selects w = true ↔ majorField w = 0x1 ∧ idxLegal (minorField w) = true := by
  rw [selects_iff_fields 0x1 0x0 (.allOnes 4) 0x0 0x00 0x00 rfl rfl]
  simp only [BitVec.and_allOnes]
  simp [tableRow, opcodeTable, Instr.ctorIdx, idxLegal]

theorem ldbuf_row_selects_iff {idx : Nibble} {w : Word} :
    (tableRow (.ldbuf idx)).selects w = true ↔
      (majorField w = 0x2 ∧ immField w = 0x00) ∧ idxLegal (minorField w) = true := by
  rw [selects_iff_fields 0x2 0x0 (.allOnes 4) 0x0 0x00 (.allOnes 8) rfl rfl]
  simp only [BitVec.and_allOnes]
  simp [tableRow, opcodeTable, Instr.ctorIdx, idxLegal]

theorem crcbuf_row_selects_iff {len : Nibble} {w : Word} :
    (tableRow (.crcbuf len)).selects w = true ↔
      (majorField w = 0x3 ∧ immField w = 0x00) ∧ lenLegal (minorField w) = true := by
  rw [selects_iff_fields 0x3 0x0 (.allOnes 4) 0x0 0x00 (.allOnes 8) rfl rfl]
  simp only [BitVec.and_allOnes]
  simp [tableRow, opcodeTable, Instr.ctorIdx, lenLegal]

/-- The row of a well-formed command selects the word of that command. -/
theorem tableRow_selects_encode {i : Instr} (h : i.wf = true) : (tableRow i).selects (encode i) = true := by
  cases i with
  | wrbyte imm => simp [wrbyte_row_selects_iff, encode]
  | crcupd imm => simp [crcupd_row_selects_iff, encode]
  | stbuf idx imm => simpa [stbuf_row_selects_iff, encode, Instr.wf] using h
  | ldbuf idx => simpa [ldbuf_row_selects_iff, encode, Instr.wf] using h
  | crcbuf len => simpa [crcbuf_row_selects_iff, encode, Instr.wf] using h
  | _ => exact (full_mask_row_selects_iff rfl rfl rfl).mpr rfl

/-- A word that a row selects decodes to a command of that row. -/
theorem exists_command_of_selects {i : Instr} {w : Word} (h : (tableRow i).selects w = true) :
    ∃ j, decode w = .command j ∧ tableRow j = tableRow i := by
  cases i with
  | wrbyte imm =>
    obtain ⟨hmajor, hminor⟩ := wrbyte_row_selects_iff.mp h
    exact ⟨.wrbyte (immField w), by rw [decode, hmajor, hminor]; rfl, rfl⟩
  | crcupd imm =>
    obtain ⟨hmajor, hminor⟩ := crcupd_row_selects_iff.mp h
    exact ⟨.crcupd (immField w), by rw [decode, hmajor, hminor]; rfl, rfl⟩
  | stbuf idx imm =>
    obtain ⟨hmajor, hidx⟩ := stbuf_row_selects_iff.mp h
    exact ⟨.stbuf (minorField w) (immField w), by rw [decode, hmajor]; exact if_pos hidx, rfl⟩
  | ldbuf idx =>
    obtain ⟨⟨hmajor, himm⟩, hidx⟩ := ldbuf_row_selects_iff.mp h
    exact ⟨.ldbuf (minorField w), by rw [decode, hmajor, himm]; exact if_pos hidx, rfl⟩
  | crcbuf len =>
    obtain ⟨⟨hmajor, himm⟩, hlen⟩ := crcbuf_row_selects_iff.mp h
    exact ⟨.crcbuf (minorField w), by rw [decode, hmajor, himm]; exact if_pos hlen, rfl⟩
  | _ =>
    have hw := (full_mask_row_selects_iff rfl rfl rfl).mp h
    exact ⟨_, (decode_eq_command_iff_of_wf rfl).mpr hw, rfl⟩

/-- Of the rows, a legal word selects that of its command and no other (spec/30_encoding.md R96). -/
theorem selects_iff_of_decode {r : OpcodeRow} {w : Word} {i : Instr} (hr : r ∈ opcodeTable)
    (h : decode w = .command i) : r.selects w = true ↔ r = tableRow i := by
  constructor
  · intro hsel
    obtain ⟨k, rfl⟩ := exists_tableRow_eq hr
    obtain ⟨j, hj, hrow⟩ := exists_command_of_selects hsel
    rw [← hrow, Decoded.command.inj (hj.symm.trans h)]
  · rintro rfl
    rw [← encode_of_decode h]
    exact tableRow_selects_encode (decode_wf h)

theorem selectedRows_of_decode {w : Word} {i : Instr} (h : decode w = .command i) :
    opcodeTable.filter (fun r => r.selects w) = [tableRow i] := by
  have hsel : ∀ r ∈ opcodeTable, r.selects w = decide (r = tableRow i) := fun r hr => by
    rw [Bool.eq_iff_iff, decide_eq_true_iff]
    exact selects_iff_of_decode hr h
  rw [List.filter_congr hsel, List.filter_eq, List.count_eq_one_of_mem opcodeTable_nodup (tableRow_mem i)]
  rfl

theorem selectedRows_of_illegal {w : Word} {c : IllegalCause} (h : decode w = .illegal c) :
    opcodeTable.filter (fun r => r.selects w) = [] := by
  rw [List.filter_eq_nil_iff]
  intro r hr hsel
  obtain ⟨i, rfl⟩ := exists_tableRow_eq hr
  obtain ⟨j, hj, -⟩ := exists_command_of_selects hsel
  rw [h] at hj
  cases hj

/-- Settles O7: a legal word selects the row of its command, an illegal one none. -/
theorem decoderFollowsOpcodeTable : Obligations.DecoderFollowsOpcodeTable := by
  refine ⟨rfl, by decide, fun w => ?_⟩
  cases h : decode w with
  | command i => exact .inl ⟨tableRow i, i, selectedRows_of_decode h, rfl, (tableRow_mnemonic i).symm⟩
  | illegal c => exact .inr ⟨selectedRows_of_illegal h, c, rfl⟩

end Sys2Proof.Machine

/-! CRC-8: the checksum of a sequence, the three commands that compute it, and a checksum taken one byte per tick
(spec/40_crc8.md R120 to R126). -/

namespace Sys2Proof.Machine

/-! ### The byte step and the fold -/

/-- One iteration, with the constant of R120 written out. -/
theorem crcShift_eq (a : Byte) : crcShift a = if a.getLsbD 0 then (a >>> 1) ^^^ 0x8C#8 else a >>> 1 := rfl

/-- "`imm = CRC` gives 0x00" (spec/40_crc8.md R123). -/
@[simp] theorem crc8Byte_self (acc : Byte) : crc8Byte acc acc = 0x00#8 := by
  rw [crc8Byte, BitVec.xor_self, Function.iterate_fixed crcShift_zero]

theorem crc8Byte_eq_xor_zero (acc b : Byte) : crc8Byte acc b = crc8Byte (acc ^^^ b) 0x00#8 := by
  simp [crc8Byte]

/-- Appending the checksum gives zero (spec/40_crc8.md R126). -/
theorem crc8_append_crc8 (bytes : List Byte) : crc8 (bytes ++ [crc8 bytes]) = 0x00#8 := by
  rw [crc8_append_singleton, crc8Byte_self]

theorem crc8_replicate_zero (n : Nat) : crc8 (List.replicate n 0x00#8) = 0x00#8 := by
  induction n with
  | zero => rfl
  | succ n ih => rw [List.replicate_succ', crc8_append_singleton, ih, crc8Byte_self]

/-- Settles O26, by the iterates of `crcShift` themselves. -/
theorem checksumByteStep : Obligations.ChecksumByteStep :=
  fun acc b => ⟨fun k => crcShift^[k] (acc ^^^ b), rfl,
    fun k _ => (Function.iterate_succ_apply' crcShift k _).trans (crcShift_eq _), rfl⟩

/-- Settles O27; the check value is the fold evaluated. -/
theorem checksumFoldAndCheckValue : Obligations.ChecksumFoldAndCheckValue :=
  ⟨crc8_nil, crc8_append_singleton, by decide +kernel⟩

/-! ### The commands -/

/-- A command without an `imm` operand has one word only. -/
theorem onlyWord_encode {i : Instr} (hwf : i.wf = true) (hwrbyte : ∀ imm, i ≠ .wrbyte imm)
    (hcrcupd : ∀ imm, i ≠ .crcupd imm) (hstbuf : ∀ idx imm, i ≠ .stbuf idx imm) :
    onlyWord (encode i) i :=
  ⟨decode_encode_of_wf hwf, fun v hv =>
    ⟨_, (decode_encode_or_imm v hwf hwrbyte hcrcupd hstbuf).trans (if_neg hv)⟩⟩

theorem exec_crcbuf {len : Nibble} (h : len.toNat ≤ 9) (s : State) :
    exec (.crcbuf len) s = .next (setCrc (crc8 ((bufBytes s).take len.toNat)) s) := by
  simp only [exec, execCrcbuf, bufPrefix?, if_pos h]

theorem exec_crcbuf_of_out_of_range {len : Nibble} (h : 10 ≤ len.toNat) (s : State) :
    exec (.crcbuf len) s = .next { s with err := true } := by
  simp only [exec, execCrcbuf, bufPrefix?, if_neg (show ¬len.toNat ≤ 9 by omega), raiseCmdError]

/-- The word of CRCBUF with an operand out of its range or with `imm` set is no command. -/
theorem crcbuf_word_illegal {len : Nibble} {imm : Byte} (h : 10 ≤ len.toNat ∨ imm ≠ 0x00#8) :
    ∃ c, decode (packWord 0x3 len imm) = .illegal c := by
  rw [decode_packWord]
  by_cases hlen : 10 ≤ len.toNat
  · exact ⟨_, if_neg (by simp [lenLegal_eq_false hlen])⟩
  · have hlegal : lenLegal len = true := decide_eq_true (by omega)
    exact ⟨_, (if_pos hlegal).trans (if_neg (h.resolve_left hlen))⟩

/-- Settles O23: the initial value is 0x00, and CRCCLR has no `imm` operand. -/
theorem crcclrClearsAccumulator : Obligations.CrcclrClearsAccumulator :=
  ⟨fun _ => ⟨rfl, rfl⟩, onlyWord_encode (i := .crcclr) rfl nofun nofun nofun⟩

/-- Settles O24: the first corner case is `crc8Byte_self`, the second one byte step evaluated. -/
theorem crcupdTakesOneByte : Obligations.CrcupdTakesOneByte := by
  have hexec (imm : Byte) (s : State) : exec (.crcupd imm) s = .next { s with crc := crc8Byte s.crc imm } := rfl
  refine ⟨fun imm s => ⟨hexec imm s, decode_encode_of_wf (i := .crcupd imm) rfl⟩, fun s => ?_, fun s hs => ?_⟩
  · rw [hexec, crc8Byte_self]
  · have hbyte : crc8Byte 0x00#8 0x01#8 = 0x5E#8 := by decide
    rw [hexec, hs, hbyte]

/-- Settles O25: the nine bytes of the buffer are its reads in index order. -/
theorem crcbufChecksBufferPrefix : Obligations.CrcbufChecksBufferPrefix :=
  ⟨fun len h => decode_encode_of_wf (i := .crcbuf len) (decide_eq_true h), fun _ s h => exec_crcbuf h s,
    fun s => exec_crcbuf (len := 0) (Nat.zero_le 9) s, fun _ s h => exec_crcbuf_of_out_of_range h s,
    fun _ _ => crcbuf_word_illegal⟩

/-! ### A checked buffer -/

theorem bufBytes_of_all_zero {s : State} (h : ∀ i : BufIdx, memRead i s = 0x00#8) :
    bufBytes s = List.replicate 9 0x00#8 := by
  simp [bufBytes, h]

/-- CRCBUF over bytes of which the last is the checksum of the ones before. -/
theorem exec_crcbuf_of_checked {len : Nibble} {s : State} {bytes : List Byte} (hlen : len.toNat ≤ 9)
    (h : (bufBytes s).take len.toNat = bytes ++ [crc8 bytes]) :
    exec (.crcbuf len) s = .next { s with crc := 0x00#8 } := by
  rw [exec_crcbuf hlen, h, crc8_append_crc8]
  rfl

theorem exec_crcbuf_of_all_zero {len : Nibble} {s : State} (hlen : len.toNat ≤ 9)
    (h : ∀ i : BufIdx, memRead i s = 0x00#8) : exec (.crcbuf len) s = .next { s with crc := 0x00#8 } := by
  rw [exec_crcbuf hlen, bufBytes_of_all_zero h, List.take_replicate, crc8_replicate_zero]
  rfl

/-- Settles O28: CRCBUF 8 and CRCBUF 9 take the bytes before the last one and then the last one. -/
theorem appendedChecksumGivesZero : Obligations.AppendedChecksumGivesZero := by
  have h8 : (8 : Nibble).toNat ≤ 9 := by decide
  have h9 : (9 : Nibble).toNat ≤ 9 := by decide
  exact ⟨crc8_append_crc8, crc8Byte_eq_xor_zero, fun s h => exec_crcbuf_of_checked h8 (by rw [← h]; rfl),
    fun s h => exec_crcbuf_of_checked h9 (by rw [← h]; rfl),
    fun s h => ⟨exec_crcbuf_of_all_zero h8 h, exec_crcbuf_of_all_zero h9 h⟩⟩

/-! ### A checksum taken one byte per tick -/

/-- An idle controller accepts the well-formed command whose word stands first on the port. -/
theorem accepts_of_cmds_cons {i : Instr} {s : State} {later : List (Option Word)} (hw : i.wf = true)
    (hi : s.op = .idle) (hr : rstAt 0 s = false) (hc : s.cmds = some (encode i) :: later) : accepts i s :=
  ⟨hi, hr, by simp [offered, cmdAt, hc, decode_encode_of_wf hw]⟩

/-- Accepting a CRC command: the registers but `CRC` stay, and the ports hold what was to come. -/
theorem ticks_succ_of_crc_command {i : Instr} {s : State} {v : Byte} {n : Nat} {later : List (Option Word)}
    (hw : i.wf = true) (hi : s.op = .idle) (hr : noReset (n + 1) s)
    (hc : s.cmds = some (encode i) :: later) (he : exec i s = .next (setCrc v s)) :
    ticks (n + 1) s = ticks n (setCrc v (afterTicks 1 s)) ∧ (setCrc v (afterTicks 1 s)).op = .idle ∧
      noReset n (setCrc v (afterTicks 1 s)) ∧ (setCrc v (afterTicks 1 s)).cmds = later := by
  have ha : accepts i s := accepts_of_cmds_cons hw hi (hr 0 (Nat.succ_pos n)) hc
  have hs : step s = .next (setCrc v (afterTicks 1 s)) := by
    rw [step_of_accept ha, he, mapNext, endTick_eq_afterTicks]
    rfl
  rw [Nat.add_comm] at hr
  exact ⟨ticks_succ_of_step n hs, hi, noReset_of_eq_drop hr rfl, by simp [hc]⟩

theorem afterTicks_succ (n : Nat) (s : State) : afterTicks (n + 1) s = afterTicks n (afterTicks 1 s) := by
  rw [afterTicks_afterTicks, Nat.add_comm]

/-- CRCUPD for each byte of a sequence folds the byte step from the accumulator as it stands. -/
theorem ticks_crcupd (bytes : List Byte) {s : State} (hi : s.op = .idle) (hr : noReset bytes.length s)
    (hc : s.cmds = bytes.map fun b => some (encode (.crcupd b))) :
    ticks bytes.length s = .next (setCrc (bytes.foldl crc8Byte s.crc) (afterTicks bytes.length s)) := by
  induction bytes generalizing s with
  | nil => rfl
  | cons b bytes ih =>
    obtain ⟨ht, hi', hr', hc'⟩ := ticks_succ_of_crc_command (i := .crcupd b) rfl hi hr hc rfl
    rw [List.length_cons, ht, ih hi' hr' hc', afterTicks_succ bytes.length]
    rfl

/-- Settles O29: CRCCLR starts the fold of the CRCUPDs at 0x00. -/
theorem streamedChecksumIsTheFunction : Obligations.StreamedChecksumIsTheFunction := by
  intro bytes s hi hr hc
  obtain ⟨ht, hi', hr', hc'⟩ := ticks_succ_of_crc_command (i := .crcclr) rfl hi hr hc rfl
  rw [List.map_map] at hc'
  rw [ht, ticks_crcupd bytes hi' hr' hc', afterTicks_succ bytes.length]
  rfl

end Sys2Proof.Machine

/-! RESET from its acceptance to its end, with the controller alone and closed with the line
(spec/41_reset_presence.md). -/

namespace Sys2Proof.Machine

/-! ### A primitive command that samples -/

/-- The registers once a primitive command has sampled the line at `level`: RESET writes `PRES` and RDBIT `RBIT`
(spec/10_state.md R44). -/
def withSample (k : Prim) (level : Bool) (s : State) : State :=
  if k = .reset then { s with pres := !level } else { s with rbit := level }

theorem withSample_op (k : Prim) (level : Bool) (s : State) : (withSample k level s).op = s.op := by
  unfold withSample
  split <;> rfl

theorem withSample_rsts (k : Prim) (level : Bool) (s : State) : (withSample k level s).rsts = s.rsts := by
  unfold withSample
  split <;> rfl

/-- All the ticks of a primitive command that samples at offset `q`. -/
theorem ticks_sample_primitive {s : State} {k : Prim} {q : Nat} (hp : primitiveOf? s.op = some k)
    (hq : sampleOffset? k = some q) (ht : s.t = 0) (hlast : q + 1 < primLen k) (hr : noReset (primLen k) s) :
    ticks (primLen k) s = .next
      { afterTicks (primLen k) (withSample k (owInAt q s) s) with t := 0, op := .idle } := by
  obtain ⟨n, hn⟩ : ∃ n, primLen k = n + 1 := ⟨primLen k - 1, by omega⟩
  rw [hn] at hlast hr ⊢
  have hinside := ticks_in_sample_primitive hp hq ht n (noReset_mono hr (by omega)) (by omega)
  rw [if_neg (by omega), ← withSample] at hinside
  have hend := step_of_primitive_end (s := atOffset n n (withSample k (owInAt q s) s)) (k := k)
    ((congrArg primitiveOf? (withSample_op k _ s)).trans hp)
    ((rstAt_of_eq_drop (congrArg (List.drop n) (withSample_rsts k _ s)) 0).trans (hr n (by omega))) hn.symm
    (fun h => absurd (Option.some.inj (hq.symm.trans h)) (show q ≠ n by omega))
  rw [ticks_add 1 hinside, ticks_one hend, endTick_eq_afterTicks]
  simp [atOffset, afterTicks, Nat.add_assoc]

/-! ### RESET tick by tick -/

/-- The state in the tick after the acceptance of RESET: offset 0 of the primitive. -/
def resetStart (s : State) : State := seqTo .reset 0 0 0 (afterTicks 1 s)

theorem step_of_accept_reset {s : State} (ha : accepts .reset s) : step s = .next (resetStart s) := by
  rw [step_of_accept ha]
  exact congrArg Host.Outcome.next (endTick_eq_afterTicks _)

theorem owInAt_resetStart (k : Nat) (s : State) : owInAt k (resetStart s) = owInAt (1 + k) s :=
  owInAt_of_eq_drop rfl rfl k

/-- The controller at offset `r` of RESET, `r + 1` ticks after acceptance. -/
theorem ticks_in_reset {s : State} {r : Nat} (ha : accepts .reset s) (hr : noReset 1001 s) (hlt : r < 1000) :
    ticks (r + 1) s = .next (atOffset r r { resetStart s with
      pres := if r ≤ 565 then s.pres else !owInAt 566 s }) := by
  have h := ticks_in_sample_primitive (s := resetStart s) (k := .reset) rfl rfl rfl r
    (noReset_mono (n := 1000) (noReset_of_eq_drop (n := 1) hr rfl) (by omega)) hlt
  rw [ticks_succ_of_step r (step_of_accept_reset ha), h, if_pos rfl, owInAt_resetStart]
  split <;> rfl

/-- All the ticks of RESET, its acceptance included. -/
theorem ticks_reset {s : State} (ha : accepts .reset s) (hr : noReset 1001 s) :
    ticks 1001 s = .next { restedAfter 1001 s with pres := !owInAt 566 s } := by
  have h := ticks_sample_primitive (s := resetStart s) (k := .reset) rfl rfl rfl (by decide)
    (noReset_of_eq_drop (n := 1) hr rfl)
  rw [withSample, if_pos rfl, owInAt_resetStart] at h
  rw [ticks_succ_of_step 1000 (step_of_accept_reset ha)]
  refine h.trans (congrArg Host.Outcome.next ?_)
  simp [resetStart, restedAfter, afterTicks, seqTo, primLen, tReset, tRstl, tPds, tRstrec, Nat.add_assoc]

/-- Settles O49: the tick `k` after acceptance is offset `k - 1` of the primitive, which drives at the offsets
below 500 and samples at offset 565. -/
theorem resetCommandDetectsPresence : Obligations.ResetCommandDetectsPresence := by
  refine ⟨onlyWord_encode (i := .reset) rfl nofun nofun nofun, fun s ha hr => ⟨?_, fun k h1 hk => ?_, ?_⟩⟩
  · exact step_of_accept ha
  · obtain ⟨r, rfl⟩ : ∃ r, k = r + 1 := ⟨k - 1, by omega⟩
    refine ⟨_, ticks_in_reset ha hr (by omega), rfl, ?_, ?_⟩
    · exact (owOe_of_kind (k := .reset) rfl).trans (decide_eq_decide.mpr Nat.succ_le_iff.symm)
    · exact if_congr Nat.succ_le_succ_iff.symm rfl rfl
  · exact ticks_reset ha hr

/-! ### The closed run goes on -/

/-- A position from which a tick goes on: idle, or inside a primitive. -/
def onPlan (s : State) : Prop := s.op ≠ .idle → ∃ k, kind? s = some k

theorem onPlan_of_idle {s : State} (h : s.op = .idle) : onPlan s := fun hb => absurd h hb

theorem onPlan_of_primitive {s : State} {k : Prim} (h : primitiveOf? s.op = some k) : onPlan s :=
  fun _ => ⟨k, kind?_of_primitive h⟩

theorem onPlan_of_item {s : State} {item : Item} (h : itemNow? s = some item) : onPlan s :=
  fun _ => ⟨_, kind?_of_item h⟩

theorem onPlan_of_seqLegal {s : State} (h : seqLegal s = true) : onPlan s := fun hb => by
  obtain ⟨k, hk, -⟩ := kind?_of_seqLegal h hb
  exact ⟨k, hk⟩

theorem AcceptEffect.onPlan {i : Instr} {s u : State} (h : AcceptEffect s i u) (hi : s.op = .idle) :
    onPlan u := by
  cases h with
  | bus _ imm hb => exact onPlan_of_seqLegal (seqLegal_start (busOp i) s)
  | _ => exact onPlan_of_idle hi

theorem busy_tick_onPlan {s : State} {k : Prim} (hk : kind? s = some k) : onPlan (moveOn k (sense k s)) := by
  rcases busy_tick_cases hk with ⟨hp, he⟩ | ⟨item, hi, -, rfl, hcase⟩
  · rw [he]
    by_cases hlt : s.t < primLen k - 1
    · exact onPlan_of_primitive (k := k) (by simp only [if_pos hlt, hp])
    · exact onPlan_of_idle (if_neg hlt)
  · rcases hcase with ⟨-, he⟩ | ⟨-, -, he⟩ | ⟨-, -, next, hn, he⟩ | ⟨-, -, -, he⟩ <;> rw [he]
    · exact onPlan_of_item (item := item) hi
    · exact onPlan_of_item (item := item) hi
    · exact onPlan_of_item (item := next) hn
    · exact onPlan_of_idle rfl

theorem step_keeps_onPlan {s t : State} (hs : onPlan s) (h : step s = .next t) : onPlan t := by
  rcases step_cases h with
    ⟨-, rfl⟩ | ⟨-, -, -, rfl⟩ | ⟨-, -, -, rfl⟩ | ⟨i, u, ⟨hi, -, -⟩, hu, rfl⟩ | ⟨-, -, k, hk, rfl⟩
  · exact onPlan_of_idle rfl
  · exact hs
  · exact hs
  · exact (acceptEffect_of_exec hu).onPlan hi
  · exact busy_tick_onPlan hk

theorem step_next_of_onPlan {s : State} (hs : onPlan s) : ∃ t, step s = .next t := by
  by_cases hr : rstAt 0 s = true
  · exact ⟨_, step_of_rst hr⟩
  have hr' : rstAt 0 s = false := by simpa using hr
  by_cases hi : s.op = .idle
  · cases hd : offered s with
    | none => exact ⟨_, step_of_idle hr' hi hd⟩
    | some d =>
      cases d with
      | illegal c => exact ⟨_, step_of_illegal hr' hi hd⟩
      | command i =>
        obtain ⟨u, hu⟩ := exec_next i s
        exact ⟨endTick u, by rw [step_of_accept ⟨hi, hr', hd⟩, hu, mapNext]⟩
  · obtain ⟨k, hk⟩ := hs hi
    exact ⟨_, step_of_busy hr' hi hk⟩

/-- No run of the controller closed with the line stops, whatever the slaves pull. -/
theorem lineTicks_next_of_onPlan (pulls : List Bool) {s : State} (hs : onPlan s) :
    ∃ t, lineTicks pulls s = .next t := by
  induction pulls generalizing s with
  | nil => exact ⟨s, rfl⟩
  | cons pull pulls ih =>
    have hline : onPlan (onLine pull s) := hs
    obtain ⟨u, hu⟩ := step_next_of_onPlan hline
    obtain ⟨t, ht⟩ := ih (step_keeps_onPlan hline hu)
    exact ⟨t, by rw [lineTicks, lineStep, hu]; exact ht⟩

/-! ### RESET on the closed line -/

/-- Settles O59: the closed run is an open run, whose sample finds the line released by the controller. -/
theorem presenceOnTheClosedLine : Obligations.PresenceOnTheClosedLine := by
  intro s pulls ha hr hlen
  obtain ⟨t, ht⟩ := lineTicks_next_of_onPlan pulls (onPlan_of_idle ha.1)
  obtain ⟨levels, hlevels, hrun, hline⟩ := closedRunIsAnOpenRun pulls s t ht
  rw [hlen] at hlevels hrun hline
  let o : State := { s with levels := levels ++ s.levels.drop 1001 }
  obtain ⟨-, hin, hend⟩ := resetCommandDetectsPresence.2 o ha hr
  have hsample : owInAt 566 o = !pulls.getD 566 false := by
    obtain ⟨u, hu, hlevel⟩ := hline 566 (by decide)
    obtain ⟨v, hv, -, hoe, -⟩ := hin 566 (by decide) (by decide)
    obtain rfl : u = v := Host.Outcome.next.inj (hu.symm.trans hv)
    obtain ⟨-, -, -, hl, htick⟩ := ticks_streams hu
    calc owInAt 566 o = owInAt 0 u := (owInAt_of_eq_drop hl htick 0).symm
      _ = lineLevel (owOe u) (pulls.getD 566 false) := hlevel
      _ = !pulls.getD 566 false := by rw [hoe]; rfl
  have hrest : restedAfter 1001 o = restedAfter 1001 s := by
    simp [restedAfter, afterTicks, o, hlevels]
  rw [ht, ← hrun, hend, hsample, hrest, Bool.not_not]

end Sys2Proof.Machine

/-! RDBIT, WR1 and WR0 from acceptance to the end of their slot (spec/42_bit_slots.md). -/

namespace Sys2Proof.Machine

/-! ### A primitive command from its acceptance -/

/-- The state in the tick after the acceptance of a primitive command: offset 0 of its primitive. -/
def primitiveStart (o : Op) (s : State) : State := seqTo o 0 0 0 (afterTicks 1 s)

theorem step_of_accept_primitive {i : Instr} {s : State} {k : Prim} (hp : primitiveOf? (busOp i) = some k)
    (ha : accepts i s) : step s = .next (primitiveStart (busOp i) s) := by
  have he : exec i s = .next (seqTo (busOp i) 0 0 0 s) := by
    cases i with
    | reset => rfl
    | rdbit => rfl
    | wr0 => rfl
    | wr1 => rfl
    | _ => cases hp
  rw [step_of_accept ha, he, mapNext, endTick_eq_afterTicks]
  rfl

theorem noReset_primitiveStart {n : Nat} {s : State} (o : Op) (hr : noReset (n + 1) s) :
    noReset n (primitiveStart o s) := by
  rw [Nat.add_comm] at hr
  exact noReset_of_eq_drop hr rfl

theorem owInAt_primitiveStart (o : Op) (k : Nat) (s : State) :
    owInAt k (primitiveStart o s) = owInAt (1 + k) s := owInAt_of_eq_drop rfl rfl k

/-- A primitive command at rest after its `n` ticks, counted from the tick after its acceptance. -/
theorem rested_primitiveStart (o : Op) (n : Nat) (s : State) :
    { afterTicks n (primitiveStart o s) with t := 0, op := .idle } = restedAfter (n + 1) s := by
  simp [primitiveStart, restedAfter, afterTicks, seqTo, Nat.add_comm, Nat.add_left_comm]

/-- At offset `r` of a primitive, which is tick `r + 1` of its command, the line is driven while that tick is one
of the first `lowLen`. -/
theorem owOe_atOffset {s : State} {k : Prim} (hk : kind? s = some k) (r n : Nat) :
    owOe (atOffset r n s) = decide (r + 1 ≤ lowLen k) :=
  owOe_of_kind ((kind?_atOffset r n s).trans hk)

/-! ### RDBIT -/

/-- RDBIT at offset `r` of its slot, `r + 1` ticks after acceptance. -/
theorem ticks_in_rdbit {s : State} {r : Nat} (ha : accepts .rdbit s) (hr : noReset 76 s) (hlt : r < 75) :
    ticks (r + 1) s = .next (atOffset r r { primitiveStart .rdbit s with
      rbit := if r ≤ 10 then s.rbit else owInAt 11 s }) := by
  have h := ticks_in_sample_primitive (s := primitiveStart .rdbit s) (k := .rd) rfl rfl rfl r
    (noReset_primitiveStart .rdbit (noReset_mono hr (by omega))) hlt
  rw [ticks_succ_of_step r (step_of_accept_primitive (i := .rdbit) rfl ha)]
  refine h.trans ?_
  rw [if_neg (by decide : ¬Prim.rd = .reset), owInAt_primitiveStart]
  split <;> rfl

/-- All the ticks of RDBIT, its acceptance included. -/
theorem ticks_rdbit {s : State} (ha : accepts .rdbit s) (hr : noReset 76 s) :
    ticks 76 s = .next { restedAfter 76 s with rbit := owInAt 11 s } := by
  have h := ticks_sample_primitive (s := primitiveStart .rdbit s) (k := .rd) rfl rfl rfl (by decide)
    (noReset_primitiveStart .rdbit hr)
  rw [withSample, if_neg (by decide), owInAt_primitiveStart] at h
  rw [ticks_succ_of_step 75 (step_of_accept_primitive (i := .rdbit) rfl ha), ← rested_primitiveStart .rdbit 75 s]
  exact h

/-- Settles O50: the tick `k` after acceptance is offset `k - 1` of the read slot, which drives at the offsets
below 5 and samples at offset 10. -/
theorem rdbitCommandReadsOneBit : Obligations.RdbitCommandReadsOneBit := by
  refine ⟨onlyWord_encode (i := .rdbit) rfl nofun nofun nofun, fun s ha hr => ⟨?_, fun k h1 hk => ?_, ?_⟩⟩
  · exact step_of_accept ha
  · obtain ⟨r, rfl⟩ : ∃ r, k = r + 1 := ⟨k - 1, by omega⟩
    refine ⟨_, ticks_in_rdbit ha hr (by omega), rfl, ?_, ?_⟩
    · exact owOe_atOffset (k := .rd) rfl r r
    · exact if_congr Nat.succ_le_succ_iff.symm rfl rfl
  · exact ticks_rdbit ha hr

/-! ### WR1 and WR0 -/

/-- A primitive command that does not sample, at offset `r`, `r + 1` ticks after acceptance. -/
theorem ticks_in_write_command {i : Instr} {s : State} {k : Prim} {r : Nat}
    (hp : primitiveOf? (busOp i) = some k) (hq : sampleOffset? k = none) (ha : accepts i s)
    (hr : noReset (r + 1) s) (hlt : r < primLen k) :
    ticks (r + 1) s = .next (atOffset r r (primitiveStart (busOp i) s)) := by
  rw [ticks_succ_of_step r (step_of_accept_primitive hp ha)]
  exact ticks_in_write_primitive hp hq rfl r (noReset_primitiveStart _ hr) hlt

/-- All the ticks of a primitive command that does not sample, its acceptance included. -/
theorem ticks_write_command {i : Instr} {s : State} {k : Prim} (hp : primitiveOf? (busOp i) = some k)
    (hq : sampleOffset? k = none) (ha : accepts i s) (hr : noReset (primLen k + 1) s) :
    ticks (primLen k + 1) s = .next (restedAfter (primLen k + 1) s) := by
  obtain ⟨n, hn⟩ := Nat.exists_eq_add_one_of_ne_zero (Nat.ne_zero_of_lt (lowLen_lt_primLen k))
  rw [hn] at hr ⊢
  have hinside := ticks_in_write_command hp hq ha (noReset_mono hr (by omega)) (by omega : n < primLen k)
  have hend := step_of_primitive_end (s := atOffset n n (primitiveStart (busOp i) s)) hp
    ((rstAt_of_eq_drop rfl 0).trans (noReset_primitiveStart (busOp i) hr n (by omega))) hn.symm (by simp [hq])
  rw [ticks_add 1 hinside, ticks_one hend, ← rested_primitiveStart (busOp i), endTick_eq_afterTicks]
  simp [atOffset, afterTicks, Nat.add_assoc]

/-- A primitive command that does not sample drives the line for its first `lowLen` ticks and releases it for the
rest, and leaves every register as it was. -/
theorem write_command_shapes_the_line {i : Instr} {s : State} {k : Prim}
    (hp : primitiveOf? (busOp i) = some k) (hq : sampleOffset? k = none) (ha : accepts i s)
    (hr : noReset (primLen k + 1) s) :
    (∀ n, 1 ≤ n → n ≤ primLen k →
      ∃ u, ticks n s = .next u ∧ busy u = true ∧ owOe u = decide (n ≤ lowLen k)) ∧
    ticks (primLen k + 1) s = .next (restedAfter (primLen k + 1) s) := by
  refine ⟨fun n h1 hn => ?_, ticks_write_command hp hq ha hr⟩
  obtain ⟨r, rfl⟩ : ∃ r, n = r + 1 := ⟨n - 1, by omega⟩
  refine ⟨_, ticks_in_write_command hp hq ha (noReset_mono hr (by omega)) hn, ?_, ?_⟩
  · exact decide_eq_true (op_ne_idle_of_primitive (s := primitiveStart (busOp i) s) hp)
  · exact owOe_atOffset (kind?_of_primitive (s := primitiveStart (busOp i) s) hp) r r

/-- Settles O51: neither write slot samples, and they differ in the length of the low part alone. -/
theorem writeSlotCommandsShapeTheLine : Obligations.WriteSlotCommandsShapeTheLine := by
  refine ⟨onlyWord_encode (i := .wr1) rfl nofun nofun nofun, onlyWord_encode (i := .wr0) rfl nofun nofun nofun,
    fun s hr => ⟨fun ha => ⟨?_, ?_⟩, fun ha => ⟨?_, ?_⟩⟩⟩
  · exact step_of_accept ha
  · exact write_command_shapes_the_line (k := .w1) rfl rfl ha hr
  · exact step_of_accept ha
  · exact write_command_shapes_the_line (k := .w0) rfl rfl ha hr

end Sys2Proof.Machine

/-! The ticks of a byte and the commands WRBYTE and RDBYTE, with the controller alone and closed with the line
(spec/43_byte_transfer.md). -/

namespace Sys2Proof.Machine

/-! ### Inside a primitive and at the end of a byte -/

/-- Up to its last offset a primitive stays the one in progress: only a read slot shifts the shifter there, and
what a read slot is does not depend on the shifter (spec/43_byte_transfer.md R192). -/
theorem busy_tick_keeps_kind {s : State} {k : Prim} (hk : kind? s = some k) (ht : s.t + 1 < primLen k) :
    kind? (moveOn k (sense k s)) = some k := by
  rcases kind?_cases hk with hp | ⟨item, hi, rfl⟩
  · have hlt : s.t < primLen k - 1 := by omega
    rw [primitive_tick hp]
    exact kind?_of_primitive (by simp only [if_pos hlt, hp])
  · rw [primLen_slotPrim] at ht
    rw [slot_tick_inside hi (by omega)]
    refine (kind?_of_item (item := item) ?_).trans ?_
    · exact hi
    cases hw : isWriteItem item with
    | true => simp
    | false => rw [slotPrim_read hw, slotPrim_read hw]

theorem op_ne_idle_of_kind {s : State} {k : Prim} (hk : kind? s = some k) : s.op ≠ .idle := by
  rcases kind?_cases hk with hp | ⟨item, hi, -⟩
  · exact op_ne_idle_of_primitive hp
  · exact op_ne_idle_of_item hi

/-- Settles O19: the table is `kind?` by cases, and no tick inside a primitive changes it. -/
theorem primitiveInProgress : Obligations.PrimitiveInProgress := by
  intro s
  have hprimitive : ∀ {o : Op} {k : Prim}, primitiveOf? o = some k → s.op = o → kind? s = some k :=
    fun hp ho => kind?_of_primitive (by rw [ho, hp])
  refine ⟨hprimitive rfl, hprimitive rfl, hprimitive rfl, hprimitive rfl, fun item hi => kind?_of_item hi,
    fun k t hk hr ht h => ?_⟩
  rw [step_of_busy hr (op_ne_idle_of_kind hk) hk] at h
  cases h
  exact busy_tick_keeps_kind hk ht

/-- Settles O33: the sample tick of a read slot shifts the level in at the top. -/
theorem byteReadSampleShiftsIn : Obligations.ByteReadSampleShiftsIn := by
  intro s item hi hw hr ht
  refine ⟨shiftIn s.sh (owInAt 0 s), shiftIn_top _ _, fun j hj => shiftIn_low _ _ hj, ?_⟩
  rw [step_of_item hi hr, slot_tick_inside hi (by omega), if_pos ⟨hw, ht⟩, ht]

theorem get_bufAfterByte_rb {s : State} (i : BufIdx) (h : Memory.wf s.buf) :
    Memory.get i.val (bufAfterByte (.rb i) s) = s.sh := Memory.get_put_same i.val s.sh h

theorem get_bufAfterByte_of_ne {s : State} {item : Item} {j : BufIdx} (h : item ≠ .rb j) :
    Memory.get j.val (bufAfterByte item s) = Memory.get j.val s.buf := by
  cases item with
  | rb i => exact Memory.get_put_other s.sh fun hj => h (by rw [Fin.ext hj])
  | _ => rfl

theorem itemValue?_of_read {item : Item} (h : isWriteItem item = false) (imm : Option Byte) (s : State) :
    itemValue? imm s item = none := by
  cases item with
  | rd => rfl
  | rb i => rfl
  | _ => cases h

/-- Settles O35: the last tick of a byte that another follows, and of one that ends its command. -/
theorem slotEndCompletesAByte : Obligations.SlotEndCompletesAByte := by
  intro s item hs hi hr ht hb
  obtain ⟨-, hwf⟩ := hs
  have hstep := step_of_item hi hr
  have hrb : ∀ i, item = .rb i → Memory.get i.val (bufAfterByte item s) = s.sh := by
    rintro i rfl
    exact get_bufAfterByte_rb i hwf
  cases hn : (plan s.op)[s.byteIdx + 1]? with
  | some next =>
    rw [byte_tick_last_next hi (by omega) (by omega) hn] at hstep
    refine ⟨_, hstep, fun h => if_pos h, fun h => if_neg h, hrb, fun j h => get_bufAfterByte_of_ne h,
      ?_, ?_, rfl⟩
    · rintro _ ⟨⟩
      refine ⟨rfl, rfl, ?_, ?_, fun hw => ?_⟩
      · rintro c rfl; rfl
      · rintro i rfl; rfl
      · simp only [itemValue?_of_read hw]
        rfl
    · intro hlast
      rw [List.getElem?_eq_none (Nat.le_of_eq hlast)] at hn
      cases hn
  | none =>
    rw [byte_tick_last_end hi (by omega) (by omega) hn] at hstep
    exact ⟨_, hstep, fun h => if_pos h, fun h => if_neg h, hrb, fun j h => get_bufAfterByte_of_ne h, nofun,
      fun _ => ⟨rfl, rfl, rfl⟩, rfl⟩

/-! ### A command of one byte -/

/-- The state in the tick after the acceptance of a byte command: the first tick of slot 0 of byte 0, with `v`
in the shifter. -/
def byteStart (o : Op) (v : Byte) (s : State) : State := { primitiveStart o s with sh := v }

theorem noReset_byteStart {n : Nat} {s : State} (o : Op) (v : Byte) (hr : noReset (n + 1) s) :
    noReset n (byteStart o v s) := noReset_primitiveStart o hr

theorem owInAt_byteStart (o : Op) (v : Byte) (k : Nat) (s : State) :
    owInAt k (byteStart o v s) = owInAt (1 + k) s := owInAt_primitiveStart o k s

theorem restedAfter_byteStart (o : Op) (v : Byte) (n : Nat) (s : State) :
    restedAfter n (byteStart o v s) = { restedAfter (n + 1) s with sh := v } := by
  simp [byteStart, primitiveStart, restedAfter, afterTicks, seqTo, Nat.add_comm, Nat.add_left_comm]

theorem step_of_accept_wrbyte {imm : Byte} {s : State} (ha : accepts (.wrbyte imm) s) :
    step s = .next (byteStart .wrbyte imm s) := by
  rw [step_of_accept ha]
  exact congrArg Host.Outcome.next (endTick_eq_afterTicks _)

theorem step_of_accept_rdbyte {s : State} (ha : accepts .rdbyte s) :
    step s = .next (byteStart .rdbyte s.sh s) := by
  rw [step_of_accept ha]
  exact congrArg Host.Outcome.next (endTick_eq_afterTicks _)

/-- A command whose plan is one write item sends the byte in the shifter and leaves the shifter at 0x00. -/
theorem one_write_byte_command {s : State} {o : Op} {v : Byte} {item : Item}
    (hs : step s = .next (byteStart o v s)) (hp : plan o = [item]) (hw : isWriteItem item = true)
    (hr : noReset 601 s) :
    sendsByte 1 v s ∧ ticks 601 s = .next { restedAfter 601 s with sh := 0x00#8 } := by
  have hi : itemNow? (byteStart o v s) = some item := congrArg (·[0]?) hp
  have hn : nbytes (byteStart o v s).op = (byteStart o v s).byteIdx + 1 := congrArg List.length hp
  have hr' : noReset 600 (byteStart o v s) := noReset_byteStart o v hr
  refine ⟨sendsByte_of_item (ticks_one hs) hi hw rfl rfl hr', ?_⟩
  rw [ticks_succ_of_step 600 hs, ticks_last_write_byte hi hw hn rfl rfl hr', restedAfter_byteStart]

/-- Settles O52: the byte plan of WRBYTE is its operand alone. -/
theorem wrbyteCommandSendsItsByte : Obligations.WrbyteCommandSendsItsByte := by
  refine ⟨fun imm => decode_encode_of_wf (i := .wrbyte imm) rfl, fun s imm ha hr => ⟨?_, ?_⟩⟩
  · exact step_of_accept ha
  · exact one_write_byte_command (step_of_accept_wrbyte ha) rfl rfl hr

/-- `DATA` keeps its value up to the last tick of a byte. -/
theorem data_in_byte {s : State} {item : Item} {k : Nat} (hi : itemNow? s = some item) (ht : s.t = 0)
    (hb : s.bitIdx = 0) (hk : k < 600) (hr : noReset k s) : ∃ u, ticks k s = .next u ∧ u.data = s.data := by
  have hsplit : 75 * (k / 75) + k % 75 = k := Nat.div_add_mod k 75
  rw [← hsplit] at hr ⊢
  obtain ⟨u, hu, -, -, hdata, -, -⟩ :=
    owOe_in_byte (k / 75) (k % 75) hi ht hb (by omega) (Nat.mod_lt k (by decide)) hr
  exact ⟨u, hu, hdata⟩

/-- Settles O53: the byte plan of RDBYTE is one read item, whose byte is stored in its last tick. -/
theorem rdbyteCommandReceivesAByte : Obligations.RdbyteCommandReceivesAByte := by
  refine ⟨onlyWord_encode (i := .rdbyte) rfl nofun nofun nofun, fun s ha hr => ?_⟩
  have hs := step_of_accept_rdbyte ha
  let u : State := byteStart .rdbyte s.sh s
  have hi : itemNow? u = some .rd := rfl
  have hr' : noReset 600 u := noReset_byteStart .rdbyte s.sh hr
  refine ⟨step_of_accept ha, readsByte_of_item (ticks_one hs) hi rfl rfl rfl hr', fun k hk => ?_,
    receivedByte u, fun j hj => ?_, ?_⟩
  · cases k with
    | zero => exact ⟨s, rfl, rfl⟩
    | succ k =>
      rw [ticks_succ_of_step k hs]
      exact data_in_byte hi rfl rfl hk (noReset_mono hr' (by omega))
  · rw [receivedByte_getLsbD u j hj, owInAt_byteStart]
    congr 1
    omega
  · rw [ticks_succ_of_step 600 hs, ticks_read_data hi rfl rfl rfl hr', restedAfter_byteStart]

/-! ### A byte written and read back on the closed line -/

theorem owInAt_zero_of_ticks {k : Nat} {s u : State} (h : ticks k s = .next u) : owInAt 0 u = owInAt k s := by
  obtain ⟨-, -, -, hlevels, htick⟩ := ticks_streams h
  exact owInAt_of_eq_drop hlevels htick 0

/-- A closed run is the run of the controller alone on some levels, each the line's own in its tick
(spec/20_memory.md R68, R69). -/
theorem exists_levels_of_closed_run (pulls : List Bool) {s : State} (hs : onPlan s) :
    ∃ levels, lineTicks pulls s = ticks pulls.length { s with levels := levels } ∧
      ∀ k u, k < pulls.length → ticks k { s with levels := levels } = .next u →
        owInAt k { s with levels := levels } = lineLevel (owOe u) (pulls.getD k false) := by
  obtain ⟨t, ht⟩ := lineTicks_next_of_onPlan pulls hs
  obtain ⟨levels, -, hrun, hline⟩ := closedRunIsAnOpenRun pulls s t ht
  refine ⟨_, ht.trans hrun.symm, fun k u hk hu => ?_⟩
  obtain ⟨v, hv, hlevel⟩ := hline k hk
  obtain rfl : v = u := Host.Outcome.next.inj (hv.symm.trans hu)
  rw [← owInAt_zero_of_ticks hu, hlevel]

/-- At offset 30 of a write slot the direction output tells the bit: a write-1 slot has released the line there
and a write-0 slot still drives it (spec/43_byte_transfer.md R198). -/
theorem released_at_offset_30 {n j : Nat} {v : Byte} {s u : State} (h : sendsByte n v s) (hj : j < 8)
    (hu : ticks (n + 75 * j + 30) s = .next u) : (!owOe u) = v.getLsbD j := by
  obtain ⟨w, hw, -, hoe⟩ := h j hj 30 (by decide)
  obtain rfl : w = u := Host.Outcome.next.inj (hw.symm.trans hu)
  rw [hoe]
  cases v.getLsbD j <;> rfl

/-- Settles O60: the slaves alone make the level in the sample ticks of the RDBYTE, which follows the WRBYTE
without a tick between. -/
theorem writeThenReadBackRoundTrip : Obligations.WriteThenReadBackRoundTrip := by
  intro s b record pulls ha hr hcmd hlen hrecord hpulls
  have hbit : ∀ j, j < 8 → record j = b.getLsbD j := fun j hj => by
    obtain ⟨-, hsends, -⟩ := wrbyteCommandSendsItsByte.2 s b ha (noReset_mono hr (by omega))
    obtain ⟨u, hu, hrec⟩ := hrecord j hj
    rw [hrec, released_at_offset_30 hsends hj hu]
  refine ⟨hbit, ?_⟩
  obtain ⟨levels, hrun, hline⟩ := exists_levels_of_closed_run pulls (onPlan_of_idle ha.1)
  rw [hlen] at hrun hline
  let o : State := { s with levels := levels }
  obtain ⟨-, -, hwritten⟩ := wrbyteCommandSendsItsByte.2 o b ha (noReset_mono hr (by omega))
  let m : State := { restedAfter 601 o with sh := 0x00#8 }
  have hrm : noReset 601 m := noReset_of_eq_drop (s := s) (n := 601) hr rfl
  have hcm : cmdAt 0 m = some 0x0600#16 := (cmdAt_of_eq_drop (s := s) (n := 601) rfl 0).trans hcmd
  have ham : accepts .rdbyte m := ⟨rfl, hrm 0 (by omega), by rw [offered, hcm]; rfl⟩
  obtain ⟨-, hreads, -, v, hv, hend⟩ := rdbyteCommandReceivesAByte.2 m ham hrm
  have hsampled : ∀ j, j < 8 → v.getLsbD j = b.getLsbD j := fun j hj => by
    obtain ⟨u, hu, -, hoe⟩ := hreads j hj 10 (by decide)
    have hou : ticks (602 + 75 * j + 10) o = .next u := by
      rw [← hu, ← ticks_add (1 + 75 * j + 10) hwritten]
      congr 1
      omega
    calc v.getLsbD j = owInAt (1 + 75 * j + 10) m := by rw [hv j hj]; congr 1; omega
      _ = owInAt (602 + 75 * j + 10) o := by
        rw [← owInAt_zero_of_ticks hu, owInAt_zero_of_ticks hou]
      _ = lineLevel (owOe u) (pulls.getD (602 + 75 * j + 10) false) := hline _ u (by omega) hou
      _ = record j := by rw [hoe, hpulls j 10 hj (by omega)]; simp [lineLevel]
      _ = b.getLsbD j := hbit j hj
  refine ⟨_, hrun.trans ((ticks_add 601 hwritten).trans hend), rfl, ?_⟩
  exact BitVec.eq_of_getLsbD_eq hsampled

end Sys2Proof.Machine

/-! The ROM layer and CONVT: commands that send one constant byte, and commands that receive bytes into the buffer
after it (spec/44_rom_layer.md, spec/45_command_layer.md). -/

namespace Sys2Proof.Machine

/-! ### A command that starts with a constant byte -/

theorem step_of_accept_constant_byte {i : Instr} {s : State} {c : Byte}
    (hp : (plan (busOp i)).head? = some (.wc c)) (ha : accepts i s) :
    step s = .next (byteStart (busOp i) c s) := by
  obtain ⟨u, hu⟩ := exec_next i s
  rw [step_of_accept ha, hu, mapNext, endTick_eq_afterTicks]
  cases acceptEffect_of_exec hu with
  | bus _ imm hb => rw [hp]; rfl
  | outOfRange _ _ hb => rw [hb] at hp; cases hp
  | _ => cases hp

/-- A command whose plan is one constant byte sends it and leaves the shifter at 0x00. -/
theorem constant_byte_command {i : Instr} {s : State} {c : Byte} (hp : plan (busOp i) = [.wc c])
    (ha : accepts i s) (hr : noReset 601 s) :
    sendsByte 1 c s ∧ ticks 601 s = .next { restedAfter 601 s with sh := 0x00#8 } :=
  one_write_byte_command (step_of_accept_constant_byte (congrArg List.head? hp) ha) hp rfl hr

/-- Settles O55: the byte plan of either command is one constant byte. -/
theorem skipromAndConvtSendOneByte : Obligations.SkipromAndConvtSendOneByte := by
  refine ⟨onlyWord_encode (i := .skiprom) rfl nofun nofun nofun,
    onlyWord_encode (i := .convt) rfl nofun nofun nofun, fun s hr => ⟨fun ha => ⟨?_, ?_⟩, fun ha => ⟨?_, ?_⟩⟩⟩
  · exact step_of_accept ha
  · exact constant_byte_command rfl ha hr
  · exact step_of_accept ha
  · exact constant_byte_command rfl ha hr

/-! ### The bytes the line carries and where they go -/

/-- The byte that the read slots starting `n` ticks after this one receive. -/
def lineByte (n : Nat) (s : State) : Byte := receivedByte (afterTicks n s)

theorem lineByte_getLsbD (n : Nat) (s : State) {j : Nat} (hj : j < 8) :
    (lineByte n s).getLsbD j = owInAt (n + (75 * j + 10)) s := by
  rw [lineByte, receivedByte_getLsbD _ j hj, owInAt_afterTicks]

/-- A received byte depends on the line alone. -/
theorem receivedByte_eq_lineByte {n : Nat} {s u : State} (hl : u.levels = s.levels.drop n)
    (ht : u.tick = s.tick + n) : receivedByte u = lineByte n s :=
  BitVec.eq_of_getLsbD_eq fun j hj => by
    rw [receivedByte_getLsbD u j hj, lineByte_getLsbD n s hj, owInAt_of_eq_drop hl ht]

/-- The buffer after the first `n` read bytes of a command accepted in this tick, whose byte 0 is a write byte. -/
def bufAfterReads (s : State) : Nat → Memory
  | 0 => s.buf
  | n + 1 => Memory.put n (lineByte (601 + 600 * n) s) (bufAfterReads s n)

/-- The shifter after the write byte and the first `n` read bytes of such a command. -/
def shAfterReads (s : State) : Nat → Byte
  | 0 => 0x00#8
  | n + 1 => lineByte (601 + 600 * n) s

theorem bufAfterReads_wf {s : State} (h : Memory.wf s.buf) (n : Nat) (hn : n ≤ 9) :
    Memory.wf (bufAfterReads s n) := by
  induction n with
  | zero => exact h
  | succ n ih => exact Memory.put_wf _ hn (ih (by omega))

/-- A byte not received yet is still the old one. -/
theorem get_bufAfterReads_of_le (s : State) {a : Nat} (n : Nat) (hn : n ≤ a) :
    Memory.get a (bufAfterReads s n) = Memory.get a s.buf := by
  induction n with
  | zero => rfl
  | succ n ih => rw [bufAfterReads, Memory.get_put_other _ (by omega), ih (by omega)]

/-- A received byte stays in the buffer: the bytes after it go to other addresses. -/
theorem get_bufAfterReads_of_lt {s : State} (h : Memory.wf s.buf) {a : Nat} (n : Nat) (hn : n ≤ 9) (ha : a < n) :
    Memory.get a (bufAfterReads s n) = lineByte (601 + 600 * a) s := by
  induction n with
  | zero => omega
  | succ n ih =>
    rw [bufAfterReads]
    by_cases hlast : a = n
    · rw [hlast, Memory.get_put_same _ _ (bufAfterReads_wf h n (by omega))]
    · rw [Memory.get_put_other _ hlast, ih (by omega) (by omega)]

/-! ### A command that receives bytes into the buffer -/

/-- This tick accepts a command, `rst` stays away from it to its end, and its plan is a constant byte `c` and
then `m` bytes read into `BUF[0]` to `BUF[m - 1]` (spec/44_rom_layer.md R210, spec/45_command_layer.md R226). -/
structure ReadsBuffer (i : Instr) (c : Byte) (m : Nat) (s : State) : Prop where
  accept : accepts i s
  plan_eq : plan (busOp i) = .wc c :: (List.range m).map fun n => .rb (Fin.ofNat 9 n)
  count_pos : 0 < m
  count_le : m ≤ 9
  noReset_to_end : noReset (601 + 600 * m) s

/-- The state `601 + 600 * n` ticks after acceptance: the first tick of the read byte `n`. -/
def readStart (o : Op) (n : Nat) (s : State) : State :=
  { seqTo o (n + 1) 0 0 (afterTicks (601 + 600 * n) s) with sh := shAfterReads s n, buf := bufAfterReads s n }

theorem receivedByte_readStart (o : Op) (n : Nat) (s : State) :
    receivedByte (readStart o n s) = lineByte (601 + 600 * n) s := receivedByte_eq_lineByte rfl rfl

namespace ReadsBuffer

variable {i : Instr} {c : Byte} {m : Nat} {s : State} (h : ReadsBuffer i c m s)
include h

theorem step_eq : step s = .next (byteStart (busOp i) c s) :=
  step_of_accept_constant_byte (by rw [h.plan_eq]; rfl) h.accept

theorem plan_read {n : Nat} (hn : n < m) : (plan (busOp i))[n + 1]? = some (.rb (Fin.ofNat 9 n)) := by
  simp [h.plan_eq, hn]

theorem nbytes_eq : nbytes (busOp i) = m + 1 := by simp [nbytes, h.plan_eq]

theorem itemNow?_constant_byte : itemNow? (byteStart (busOp i) c s) = some (.wc c) :=
  congrArg (·[0]?) h.plan_eq

theorem noReset_constant_byte : noReset 600 (byteStart (busOp i) c s) :=
  noReset_byteStart _ _ (noReset_mono h.noReset_to_end (by omega))

theorem itemNow?_readStart {n : Nat} (hn : n < m) :
    itemNow? (readStart (busOp i) n s) = some (.rb (Fin.ofNat 9 n)) := h.plan_read hn

theorem noReset_readStart {n : Nat} (hn : n < m) : noReset 600 (readStart (busOp i) n s) :=
  noReset_of_eq_drop (n := 601 + 600 * n) (noReset_mono h.noReset_to_end (by omega)) rfl

theorem index_eq {n : Nat} (hn : n < m) : (Fin.ofNat 9 n).val = n :=
  Nat.mod_eq_of_lt (Nat.lt_of_lt_of_le hn h.count_le)

/-- From acceptance to the first tick of the read byte `n`. -/
theorem ticks_readStart (n : Nat) (hn : n < m) : ticks (601 + 600 * n) s = .next (readStart (busOp i) n s) := by
  induction n with
  | zero =>
    have hbyte := ticks_write_byte h.itemNow?_constant_byte rfl (h.plan_read hn) rfl rfl h.noReset_constant_byte
    rw [ticks_succ_of_step 600 h.step_eq, hbyte]
    simp [readStart, byteStart, primitiveStart, seqTo, afterTicks, itemValue?, shAfterReads, bufAfterReads]
  | succ n ih =>
    have hlt : n < m := by omega
    have hbyte := ticks_read_buf (h.itemNow?_readStart hlt) (h.plan_read hn) rfl rfl rfl (h.noReset_readStart hlt)
    rw [Nat.mul_succ, ← Nat.add_assoc, ticks_add 600 (ih hlt), hbyte, receivedByte_readStart, h.index_eq hlt]
    simp [readStart, seqTo, afterTicks, shAfterReads, bufAfterReads, Nat.mul_succ, Nat.add_assoc]

/-- From acceptance to the tick after the end of the command. -/
theorem ticks_end : ticks (601 + 600 * m) s = .next
    { restedAfter (601 + 600 * m) s with sh := shAfterReads s m, buf := bufAfterReads s m } := by
  obtain ⟨n, rfl⟩ := Nat.exists_eq_add_one_of_ne_zero h.count_pos.ne'
  have hlt : n < n + 1 := n.lt_succ_self
  have hbyte := ticks_last_read_buf (h.itemNow?_readStart hlt) h.nbytes_eq rfl rfl (h.noReset_readStart hlt)
  rw [Nat.mul_succ, ← Nat.add_assoc, ticks_add 600 (h.ticks_readStart n hlt), hbyte, receivedByte_readStart,
    h.index_eq hlt]
  simp [readStart, restedAfter, seqTo, afterTicks, shAfterReads, bufAfterReads, Nat.add_assoc]

theorem sends_constant_byte : sendsByte 1 c s :=
  sendsByte_of_item (ticks_one h.step_eq) h.itemNow?_constant_byte rfl rfl rfl h.noReset_constant_byte

theorem reads_byte {n : Nat} (hn : n < m) : readsByte (601 + 600 * n) s :=
  readsByte_of_item (h.ticks_readStart n hn) (h.itemNow?_readStart hn) rfl rfl rfl (h.noReset_readStart hn)

/-- The buffer once `n` bytes are read, at the next read byte or at rest. -/
theorem buf_after_reads {n : Nat} (hn : n ≤ m) :
    ∃ u, ticks (601 + 600 * n) s = .next u ∧ u.buf = bufAfterReads s n := by
  rcases Nat.lt_or_eq_of_le hn with hlt | rfl
  · exact ⟨_, h.ticks_readStart n hlt, rfl⟩
  · exact ⟨_, h.ticks_end, rfl⟩

/-- In the last tick of its read byte a byte of the buffer is still the old one. -/
theorem memRead_in_last_tick {a : BufIdx} (ha : a.val < m) :
    ∃ u, ticks (600 * (a.val + 2)) s = .next u ∧ memRead a u = memRead a s := by
  obtain ⟨u, hu, -, -, -, hbuf, -⟩ := owOe_in_byte 7 74 (h.itemNow?_readStart ha) rfl rfl (by omega) (by omega)
    (noReset_mono (h.noReset_readStart ha) (by omega))
  refine ⟨u, ?_, (congrArg (Memory.get a.val) hbuf).trans (get_bufAfterReads_of_le s a.val le_rfl)⟩
  rw [← hu, ← ticks_add _ (h.ticks_readStart a.val ha)]
  congr 1
  omega

theorem getLsbD_received (hwf : Memory.wf s.buf) {n a j : Nat} (hn : n ≤ m) (ha : a < n) (hj : j < 8) :
    (Memory.get a (bufAfterReads s n)).getLsbD j = owInAt (611 + 600 * a + 75 * j) s := by
  rw [get_bufAfterReads_of_lt hwf n (hn.trans h.count_le) ha, lineByte_getLsbD _ s hj]
  congr 1
  omega

/-- In the tick after the last one of its read byte a byte of the buffer is what the line carried. -/
theorem memRead_after_last_tick (hwf : Memory.wf s.buf) {a : BufIdx} (ha : a.val < m) :
    ∃ u, ticks (600 * (a.val + 2) + 1) s = .next u ∧
      ∀ j, j < 8 → (memRead a u).getLsbD j = owInAt (611 + 600 * a.val + 75 * j) s := by
  obtain ⟨u, hu, hbuf⟩ := h.buf_after_reads (n := a.val + 1) ha
  refine ⟨u, ?_, fun j hj => ?_⟩
  · rwa [show 600 * (a.val + 2) + 1 = 601 + 600 * (a.val + 1) by omega]
  · rw [memRead, hbuf, h.getLsbD_received hwf ha a.val.lt_succ_self hj]

end ReadsBuffer

/-- Settles O54: the byte plan of RDROM is 0x33 and eight read items, and the last byte read stays in the
shifter. -/
theorem rdromCommandReadsEightBytes : Obligations.RdromCommandReadsEightBytes := by
  refine ⟨onlyWord_encode (i := .rdrom) rfl nofun nofun nofun, fun s hinv ha hr => ?_⟩
  obtain ⟨-, hwf⟩ := hinv
  have h : ReadsBuffer .rdrom 0x33#8 8 s := ⟨ha, rfl, by decide, by decide, hr⟩
  refine ⟨step_of_accept ha, h.sends_constant_byte, fun n hn => h.reads_byte hn,
    fun a hlt => ⟨h.memRead_in_last_tick hlt, h.memRead_after_last_tick hwf hlt⟩, _, h.ticks_end, ?_, ?_, ?_, ?_⟩
  · exact fun a hlt j hj => h.getLsbD_received hwf le_rfl hlt hj
  · exact get_bufAfterReads_of_le s 8 le_rfl
  · exact (get_bufAfterReads_of_lt hwf 8 (by decide) (by decide : 7 < 8)).symm
  · rfl

end Sys2Proof.Machine

/-! The command layer: RDSCR, which receives the scratchpad into the buffer, and WRSCR, which sends three bytes of
it (spec/45_command_layer.md R226, R227). -/

namespace Sys2Proof.Machine

/-! ### RDSCR -/

/-- Settles O56: the byte plan of RDSCR is 0xBE and nine read items, and the last byte read stays in the
shifter. -/
theorem rdscrCommandReadsNineBytes : Obligations.RdscrCommandReadsNineBytes := by
  refine ⟨onlyWord_encode (i := .rdscr) rfl nofun nofun nofun, fun s hinv ha hr => ?_⟩
  obtain ⟨-, hwf⟩ := hinv
  have h : ReadsBuffer .rdscr 0xBE#8 9 s := ⟨ha, rfl, by decide, by decide, hr⟩
  refine ⟨step_of_accept ha, h.sends_constant_byte, fun n hn => h.reads_byte hn,
    fun a => ⟨h.memRead_in_last_tick a.isLt, h.memRead_after_last_tick hwf a.isLt⟩, _, h.ticks_end, ?_, ?_, ?_⟩
  · exact fun a j hj => h.getLsbD_received hwf le_rfl a.isLt hj
  · exact (get_bufAfterReads_of_lt hwf 9 le_rfl (by decide : 8 < 9)).symm
  · rfl

/-! ### A command that sends bytes only -/

/-- The byte that byte `n` of a bus command accepted in this tick sends, if its item is `WC` or `WB`: a buffer
byte is the one of this tick, for no write byte changes the buffer. -/
def plannedByte (o : Op) (n : Nat) (s : State) : Byte := ((plan o)[n]?.bind (itemValue? none s)).getD 0x00#8

theorem plannedByte_of_item {o : Op} {n : Nat} {item : Item} (h : (plan o)[n]? = some item) (s : State) :
    plannedByte o n s = (itemValue? none s item).getD 0x00#8 := by simp [plannedByte, h]

theorem plannedByte_zero {o : Op} {c : Byte} (h : (plan o).head? = some (.wc c)) (s : State) :
    plannedByte o 0 s = c := by
  rw [List.head?_eq_getElem?] at h
  rw [plannedByte_of_item h, itemValue?, Option.getD_some]

/-- This tick accepts a command, `rst` stays away from it to its end, and its plan is a constant byte `c` and
then write items only, `m` items in all (spec/44_rom_layer.md R211, spec/45_command_layer.md R225, R227). -/
structure SendsOnly (i : Instr) (c : Byte) (m : Nat) (s : State) : Prop where
  accept : accepts i s
  head_eq : (plan (busOp i)).head? = some (.wc c)
  all_write : ∀ item ∈ plan (busOp i), isWriteItem item = true
  count_eq : nbytes (busOp i) = m
  noReset_to_end : noReset (1 + 600 * m) s

/-- The state `1 + 600 * n` ticks after acceptance: the first tick of the write byte `n`. -/
def writeStart (o : Op) (n : Nat) (s : State) : State :=
  { seqTo o n 0 0 (afterTicks (1 + 600 * n) s) with sh := plannedByte o n s }

theorem itemNow?_writeStart {o : Op} {n : Nat} {item : Item} (h : (plan o)[n]? = some item) (s : State) :
    itemNow? (writeStart o n s) = some item := h

namespace SendsOnly

variable {i : Instr} {c : Byte} {m : Nat} {s : State} (h : SendsOnly i c m s)
include h

theorem exists_write_item {n : Nat} (hn : n < m) :
    ∃ item, (plan (busOp i))[n]? = some item ∧ isWriteItem item = true :=
  have hlen : n < (plan (busOp i)).length := hn.trans_eq h.count_eq.symm
  ⟨_, List.getElem?_eq_getElem hlen, h.all_write _ (List.getElem_mem hlen)⟩

theorem count_pos : 0 < m := by
  have hhead := h.head_eq
  rw [← h.count_eq, nbytes]
  exact List.length_pos_of_ne_nil fun hnil => by rw [hnil] at hhead; cases hhead

theorem noReset_writeStart {n : Nat} (hn : n < m) : noReset 600 (writeStart (busOp i) n s) :=
  noReset_of_eq_drop (n := 1 + 600 * n) (noReset_mono h.noReset_to_end (by omega)) rfl

/-- From acceptance to the first tick of the write byte `n`. -/
theorem ticks_writeStart (n : Nat) (hn : n < m) :
    ticks (1 + 600 * n) s = .next (writeStart (busOp i) n s) := by
  induction n with
  | zero =>
    rw [Nat.mul_zero, ticks_one (step_of_accept_constant_byte h.head_eq h.accept), writeStart,
      plannedByte_zero h.head_eq]
    rfl
  | succ n ih =>
    have hlt : n < m := by omega
    obtain ⟨item, hi, hw⟩ := h.exists_write_item hlt
    obtain ⟨next, hnext, -⟩ := h.exists_write_item hn
    have hbyte := ticks_write_byte (itemNow?_writeStart hi s) hw hnext rfl rfl (h.noReset_writeStart hlt)
    have hvalue : itemValue? none (writeStart (busOp i) n s) next = itemValue? none s next :=
      itemValue?_congr rfl none next
    rw [Nat.mul_succ, ← Nat.add_assoc, ticks_add 600 (ih hlt), hbyte, hvalue, ← plannedByte_of_item hnext]
    simp [writeStart, seqTo, afterTicks, Nat.mul_succ, Nat.add_assoc]

theorem sends_byte {n : Nat} (hn : n < m) :
    sendsByte (1 + 600 * n) (plannedByte (busOp i) n s) s := by
  obtain ⟨item, hi, hw⟩ := h.exists_write_item hn
  exact sendsByte_of_item (u := writeStart (busOp i) n s) (h.ticks_writeStart n hn) (itemNow?_writeStart hi s) hw
    rfl rfl (h.noReset_writeStart hn)

/-- From acceptance to the tick after the end of the command. -/
theorem ticks_end : ticks (1 + 600 * m) s = .next { restedAfter (1 + 600 * m) s with sh := 0x00#8 } := by
  obtain ⟨n, rfl⟩ := Nat.exists_eq_add_one_of_ne_zero h.count_pos.ne'
  have hlt : n < n + 1 := n.lt_succ_self
  obtain ⟨item, hi, hw⟩ := h.exists_write_item hlt
  have hbyte := ticks_last_write_byte (itemNow?_writeStart hi s) hw h.count_eq rfl rfl (h.noReset_writeStart hlt)
  rw [Nat.mul_succ, ← Nat.add_assoc, ticks_add 600 (h.ticks_writeStart n hlt), hbyte]
  simp [writeStart, restedAfter, seqTo, afterTicks, Nat.add_assoc]

end SendsOnly

/-! ### WRSCR -/

/-- Settles O57: the byte plan of WRSCR is 0x4E and the write items of `BUF[0]`, `BUF[1]` and `BUF[2]`. -/
theorem wrscrCommandSendsFourBytes : Obligations.WrscrCommandSendsFourBytes := by
  refine ⟨onlyWord_encode (i := .wrscr) rfl nofun nofun nofun, fun s ha hr => ?_⟩
  have h : SendsOnly .wrscr 0x4E#8 4 s := ⟨ha, rfl, by decide, rfl, hr⟩
  refine ⟨step_of_accept ha, ?_, ?_, ?_, ?_, h.ticks_end⟩
  · exact h.sends_byte (by decide : 0 < 4)
  · exact h.sends_byte (by decide : 1 < 4)
  · exact h.sends_byte (by decide : 2 < 4)
  · exact h.sends_byte (by decide : 3 < 4)

end Sys2Proof.Machine

/-! Buffer access and no-operation: what NOP, STBUF and LDBUF do within their one tick
(spec/46_buffer_misc.md R246 to R248). -/

namespace Sys2Proof.Machine

/-! ### NOP -/

/-- Settles O20: NOP leaves an idle controller idle, so the port is ready unless `rst` comes. -/
theorem nopChangesNothing : Obligations.NopChangesNothing := by
  refine ⟨fun _ => rfl, fun s ha => ⟨step_of_accept ha, ?_⟩, onlyWord_encode (i := .nop) rfl nofun nofun nofun⟩
  obtain ⟨hidle, -, -⟩ := ha
  rw [endTick_eq_afterTicks]
  simp [cmdReady, hidle]

/-! ### The index operand -/

theorem bufIdx?_eq_none {idx : Nibble} (h : 9 ≤ idx.toNat) : bufIdx? idx = none := dif_neg (by omega)

theorem idxLegal_of_toNat_eq {idx : Nibble} {i : BufIdx} (h : idx.toNat = i.val) : idxLegal idx = true :=
  decide_eq_true (by omega)

/-! ### STBUF -/

theorem exec_stbuf {idx : Nibble} {i : BufIdx} (h : idx.toNat = i.val) (imm : Byte) (s : State) :
    exec (.stbuf idx imm) s = .next (memWrite i imm s) := by
  simp only [exec, execStbuf, bufIdx?_eq_some.mpr h]

theorem exec_stbuf_of_out_of_range {idx : Nibble} (h : 9 ≤ idx.toNat) (imm : Byte) (s : State) :
    exec (.stbuf idx imm) s = .next { s with err := true } := by
  simp only [exec, execStbuf, bufIdx?_eq_none h, raiseCmdError]

/-- Settles O21: STBUF is one buffer write, whose reads are those of the shared operation `memWrite`. -/
theorem stbufStoresOneByte : Obligations.StbufStoresOneByte := by
  refine ⟨fun idx imm s i hi hwf => ?_, fun idx imm s h => ?_⟩
  · have hdecode := decode_encode_of_wf (i := .stbuf idx imm) (idxLegal_of_toNat_eq hi)
    exact ⟨hdecode, _, exec_stbuf hi imm s, memRead_memWrite_same i imm hwf,
      fun j hj => memRead_memWrite_other imm hj, rfl⟩
  · obtain ⟨hillegal, -⟩ := outOfRangeOperandsRaiseCmdError idx imm _ (.inl ⟨h, .inl rfl⟩)
    exact ⟨hillegal, exec_stbuf_of_out_of_range h imm s⟩

/-! ### LDBUF -/

theorem exec_ldbuf {idx : Nibble} {i : BufIdx} (h : idx.toNat = i.val) (s : State) :
    exec (.ldbuf idx) s = .next { s with data := memRead i s } := by
  simp only [exec, execLdbuf, bufIdx?_eq_some.mpr h]

theorem exec_ldbuf_of_out_of_range {idx : Nibble} (h : 9 ≤ idx.toNat) (s : State) :
    exec (.ldbuf idx) s = .next { s with err := true } := by
  simp only [exec, execLdbuf, bufIdx?_eq_none h, raiseCmdError]

/-- The word of LDBUF with an index out of its range or with `imm` set is no command. -/
theorem ldbuf_word_illegal {idx : Nibble} {imm : Byte} (h : 9 ≤ idx.toNat ∨ imm ≠ 0x00#8) :
    ∃ c, decode (packWord 0x2 idx imm) = .illegal c := by
  by_cases hidx : 9 ≤ idx.toNat
  · exact (outOfRangeOperandsRaiseCmdError idx imm _ (.inl ⟨hidx, .inr rfl⟩)).1
  · have hlegal : idxLegal idx = true := decide_eq_true (by omega)
    obtain ⟨-, honly⟩ := onlyWord_encode (i := .ldbuf idx) hlegal nofun nofun nofun
    rw [← packWord_or_imm]
    exact honly imm (h.resolve_left hidx)

/-- Settles O22: the index is legal exactly where it names a byte of the buffer. -/
theorem ldbufLoadsOneByte : Obligations.LdbufLoadsOneByte :=
  ⟨fun idx s _ hi => ⟨decode_encode_of_wf (i := .ldbuf idx) (idxLegal_of_toNat_eq hi), exec_ldbuf hi s⟩,
    fun _ s h => exec_ldbuf_of_out_of_range h s, fun _ _ => ldbuf_word_illegal⟩

end Sys2Proof.Machine

/-! Exceptions: no tick stops a run, and the command error, the only exception, stays out of what follows
(spec/60_exceptions.md R260, R261, R267). -/

namespace Sys2Proof.Machine

/-! ### No run stops -/

/-- Progress and preservation of the invariant in one tick. -/
theorem step_next_of_inv {s : State} (hs : Inv s) : ∃ t, step s = .next t ∧ Inv t := by
  have ⟨hseq, _⟩ := hs
  obtain ⟨t, ht⟩ := step_next_of_onPlan (onPlan_of_seqLegal hseq)
  exact ⟨t, ht, everyTickKeepsTheInvariant s t hs ht⟩

/-- Settles O47, by induction on the number of ticks. -/
theorem noRunEverStops : Obligations.NoRunEverStops := by
  intro n
  induction n with
  | zero => exact fun s hs => ⟨s, ticks_zero s, hs⟩
  | succ n ih =>
    intro s hs
    obtain ⟨u, hu, hinv⟩ := step_next_of_inv hs
    rw [ticks_succ_of_step n hu]
    exact ih u hinv

/-! ### The command error -/

theorem cmdReady_endTick_of_idle {s : State} (h : s.op = .idle) : cmdReady (endTick s) = !rstAt 1 s := by
  rw [endTick_eq_afterTicks]
  simp [cmdReady, h]

/-- Settles O12: the tick of an illegal word leaves the controller idle, and no tick reads `ERR`, which O40
says of every value it may hold. -/
theorem illegalWordSetsErrOnly : Obligations.IllegalWordSetsErrOnly := by
  obtain ⟨-, -, step_withErr⟩ := errIsStickyUntilRst
  refine ⟨fun s w c hi hr hw hc => ⟨?_, ?_⟩, fun s t h => ?_⟩
  · exact step_of_illegal_word ⟨c, hc⟩ s hi hr hw
  · exact cmdReady_endTick_of_idle (s := { s with err := true }) hi
  · exact step_withErr { s with err := false } t true h

end Sys2Proof.Machine

/-! The reset input, and the duration of every command (spec/70_reset_and_hazards.md R290, R310). -/

namespace Sys2Proof.Machine

/-! ### The reset input -/

/-- Settles O10: a tick with `rst` leaves the registers of the reset state, from which the outputs follow. -/
theorem rstGivesResetState : Obligations.RstGivesResetState := by
  intro s hr
  have hstatus : status (endTick (resetRegs s)) = status State.reset := rfl
  exact ⟨by simp [cmdReady, hr], _, step_of_rst hr, rfl, rfl, rfl, rfl, rfl, fun _ => rfl, rfl, rfl, rfl, rfl,
    rfl, rfl, rfl, hstatus.trans rfl, rfl, rfl, rfl⟩

/-! ### The busy ticks left -/

/-- `n` busy ticks are left from this position to the end of the command in progress: the rest of the primitive,
or of the `600 * nbytes` ticks of the byte plan (spec/43_byte_transfer.md R191). -/
inductive TicksLeft : Nat → State → Prop
  | idle {s : State} (ho : s.op = .idle) : TicksLeft 0 s
  | primitive {n : Nat} {s : State} {k : Prim} (hp : primitiveOf? s.op = some k) (ht : s.t < primLen k)
      (hn : s.t + n = primLen k) : TicksLeft n s
  | item {n : Nat} {s : State} {item : Item} (hi : itemNow? s = some item) (hb : s.bitIdx < 8) (ht : s.t < 75)
      (hn : 600 * s.byteIdx + 75 * s.bitIdx + s.t + n = 600 * nbytes s.op) : TicksLeft n s

/-- A legal position is as many ticks from the end as its counters leave of the duration. -/
theorem ticksLeft_of_seqLegal {s : State} (h : seqLegal s = true) :
    TicksLeft (durationOf s.op - (600 * s.byteIdx + 75 * s.bitIdx + s.t)) s := by
  rcases seqLegal_cases h with ⟨ho, -, -, -⟩ | ⟨k, hp, hy, hb, ht⟩ | ⟨item, hi, hy, hb, ht⟩
  · have hzero : durationOf s.op = 0 := by rw [ho]; rfl
    rw [hzero, Nat.zero_sub]
    exact .idle ho
  · have hlen : durationOf s.op = primLen k := by simp only [durationOf, hp]
    exact .primitive hp ht (by omega)
  · have hlen : durationOf s.op = 600 * nbytes s.op := by simp only [durationOf, primitiveOf?_of_item hi]; rfl
    exact .item hi hb ht (by omega)

theorem op_of_ticksLeft_zero {s : State} (h : TicksLeft 0 s) : s.op = .idle := by
  cases h with
  | idle ho => exact ho
  | primitive hp ht hn => omega
  | item hi hb ht hn =>
    have hy : s.byteIdx < nbytes s.op := (List.getElem?_eq_some_iff.mp hi).1
    omega

theorem op_ne_idle_of_ticksLeft {n : Nat} {s : State} (h : TicksLeft (n + 1) s) : s.op ≠ .idle := by
  cases h with
  | primitive hp ht hn => exact op_ne_idle_of_primitive hp
  | item hi hb ht hn => exact op_ne_idle_of_item hi

/-- The end of a tick leaves the position as it is. -/
theorem TicksLeft.endTick {n : Nat} {s : State} (h : TicksLeft n s) : TicksLeft n (endTick s) := by
  cases h with
  | idle ho => exact .idle ho
  | primitive hp ht hn => exact .primitive hp ht hn
  | item hi hb ht hn => exact .item hi hb ht hn

/-- A busy tick without `rst` leaves one tick less. -/
theorem step_of_ticksLeft {n : Nat} {s : State} (h : TicksLeft (n + 1) s) (hr : rstAt 0 s = false) :
    ∃ u, step s = .next u ∧ TicksLeft n u := by
  have hb := op_ne_idle_of_ticksLeft h
  cases h with
  | @primitive _ _ k hp ht hn =>
    refine ⟨_, step_of_busy hr hb (kind?_of_primitive hp), .endTick ?_⟩
    rw [primitive_tick hp]
    by_cases hlt : s.t < primLen k - 1
    · simp only [if_pos hlt]
      exact .primitive hp (by show s.t + 1 < primLen k; omega) (by show s.t + 1 + n = primLen k; omega)
    · obtain rfl : n = 0 := by omega
      exact .idle (if_neg hlt)
  | @item _ _ item hi hbit ht hn =>
    refine ⟨_, step_of_item hi hr, .endTick ?_⟩
    by_cases h74 : s.t < 74
    · rw [slot_tick_inside hi h74]
      exact .item (item := item) hi hbit (by show s.t + 1 < 75; omega)
        (by show 600 * s.byteIdx + 75 * s.bitIdx + (s.t + 1) + n = 600 * nbytes s.op; omega)
    have hlast : 74 ≤ s.t := by omega
    by_cases h7 : s.bitIdx < 7
    · rw [slot_tick_last hi hlast h7]
      exact .item (item := item) hi (by show s.bitIdx + 1 < 8; omega) (by decide : 0 < 75)
        (by show 600 * s.byteIdx + 75 * (s.bitIdx + 1) + 0 + n = 600 * nbytes s.op; omega)
    have hslot : 7 ≤ s.bitIdx := by omega
    cases hnext : (plan s.op)[s.byteIdx + 1]? with
    | some next =>
      rw [byte_tick_last_next hi hlast hslot hnext]
      exact .item (item := next) hnext (by decide : 0 < 8) (by decide : 0 < 75)
        (by show 600 * (s.byteIdx + 1) + 75 * 0 + 0 + n = 600 * nbytes s.op; omega)
    | none =>
      have hend : nbytes s.op ≤ s.byteIdx + 1 := List.getElem?_eq_none_iff.mp hnext
      obtain rfl : n = 0 := by omega
      rw [byte_tick_last_end hi hlast hslot hnext]
      exact .idle rfl

/-- `k` busy ticks without `rst` leave `k` ticks less. -/
theorem ticks_of_ticksLeft {n : Nat} (k : Nat) {s : State} (h : TicksLeft (n + k) s) (hr : noReset k s) :
    ∃ u, ticks k s = .next u ∧ TicksLeft n u := by
  induction k generalizing s with
  | zero => exact ⟨s, ticks_zero s, h⟩
  | succ k ih =>
    obtain ⟨u, hu, hleft⟩ := step_of_ticksLeft h (hr 0 k.succ_pos)
    obtain ⟨hrsts, -⟩ := step_streams hu
    rw [ticks_succ_of_step k hu]
    exact ih hleft (noReset_of_eq_drop (n := 1) (by rwa [Nat.add_comm]) hrsts)

/-! ### The duration of a command -/

/-- The table of R310 is the duration the primitives and the byte plans give. -/
theorem nominalDuration_eq_durationOf (i : Instr) : nominalDuration i = durationOf (busOp i) := by cases i <;> rfl

/-- Accepting a command leaves its whole duration. -/
theorem AcceptEffect.ticksLeft {i : Instr} {s u : State} (h : AcceptEffect s i u) (hi : s.op = .idle) :
    TicksLeft (nominalDuration i) u := by
  rw [nominalDuration_eq_durationOf]
  cases h with
  | bus _ imm _ =>
    exact ticksLeft_of_seqLegal (s := loadSh _ (seqTo (busOp i) 0 0 0 s)) (seqLegal_start (busOp i) s)
  | outOfRange _ _ hb => rw [hb]; exact .idle hi
  | _ => exact .idle hi

/-- `k + 1` ticks on from the start of its acceptance a command has its duration less `k` left. -/
theorem ticks_succ_of_accept {i : Instr} {s : State} {n k : Nat} (ha : accepts i s)
    (hn : n + k = nominalDuration i) (hr : noReset (k + 1) s) :
    ∃ u, ticks (k + 1) s = .next u ∧ TicksLeft n u := by
  obtain ⟨u, hu⟩ := exec_next i s
  have hstep := step_of_accept ha
  rw [hu, mapNext] at hstep
  obtain ⟨hrsts, -⟩ := step_streams hstep
  have hleft : TicksLeft (n + k) (endTick u) := by
    rw [hn]
    exact ((acceptEffect_of_exec hu).ticksLeft ha.1).endTick
  rw [ticks_succ_of_step k hstep]
  exact ticks_of_ticksLeft k hleft (noReset_of_eq_drop (n := 1) (by rwa [Nat.add_comm]) hrsts)

/-- Settles O48: `k` ticks after the acceptance `D + 1 - k` busy ticks are left. -/
theorem everyCommandLastsItsDuration : Obligations.EveryCommandLastsItsDuration := by
  intro i s ha hr
  refine ⟨fun k h1 hk => ?_, ?_⟩
  · obtain ⟨r, rfl⟩ : ∃ r, k = r + 1 := ⟨k - 1, by omega⟩
    obtain ⟨n, hn⟩ : ∃ n, n + 1 + r = nominalDuration i := ⟨nominalDuration i - (r + 1), by omega⟩
    obtain ⟨u, hu, hleft⟩ := ticks_succ_of_accept ha hn (noReset_mono hr (by omega))
    have hb := op_ne_idle_of_ticksLeft hleft
    exact ⟨u, hu, decide_eq_true hb, by simp [cmdReady, hb]⟩
  · obtain ⟨u, hu, hleft⟩ := ticks_succ_of_accept ha (Nat.zero_add _) hr
    have hidle := op_of_ticksLeft_zero hleft
    obtain ⟨hrsts, -⟩ := ticks_streams hu
    exact ⟨u, hu, by simp [busy, hidle], by simp [cmdReady, hidle, rstAt_of_eq_drop hrsts]⟩

end Sys2Proof.Machine
